-- ==== Sys2Proof/Word.lean ====
section
/-! DEFINITION. The values the machine computes with: cells and stream bytes (8 bits, unsigned), and the non-negative
integers that index its three memories. spec/00_scope.md R5, spec/43_cell_arithmetic.md R92. A program address, a tape
index and a code unit are each a plain `Nat`: the spec gives them as integers in a range, adds at most one to them and
compares them, and never slices or shifts them (R4, R48, R92). -/

namespace Sys2Proof

/-- A cell of the tape, or a byte of a stream: 8 bits, bit 0 the least significant (R5, R14, R34). -/
abbrev Byte := BitVec 8

end Sys2Proof
end

