-- ==== Sys2Proof/Config.lean ====
section
/-! DEFINITION. The implementation parameters of a run and what is derived from them. spec/00_scope.md R4,
spec/46_host_interface.md R108. The spec leaves no value free (spec/93_implementation_defined.md section 1), so no opaque
constant stands here. -/

namespace Sys2Proof

/-- Every code unit of the program fits in `CHAR_W` bits (R4: "each code unit in `[0, 2^CHAR_W)`"). -/
def progFits (charW : Nat) (prog : List Nat) : Bool :=
  prog.all fun c => decide (c < 2 ^ charW)

/-- The parameters of a run, constant from one reset to the next (R4). A value outside the legal range "is not a run of
this machine" (R108, D5): the three proof fields make it unrepresentable. `PROG_LEN` is the length of `prog`. -/
structure Params where
  /-- `TAPE_LEN`, the number of cells and the modulus of pointer wraparound; the default is the spec's. -/
  tapeLen : Nat := 4096
  /-- `CHAR_W`, the width of a code unit; the default is the spec's. -/
  charW : Nat := 8
  /-- `prog`, the program. -/
  prog : List Nat := []
  tapeLen_pos : 1 ≤ tapeLen := by decide
  charW_ge : 7 ≤ charW := by decide
  prog_fits : progFits charW prog = true := by decide
  deriving DecidableEq, Repr

/-- `PROG_LEN` (R4). -/
abbrev Params.progLen (p : Params) : Nat := p.prog.length

/-- The least width `w >= 1` with `n < 2^w`. -/
def widthFor (n : Nat) : Nat := Nat.log2 n + 1

/-- `PTR_W`: the least `w >= 1` with `2^w >= TAPE_LEN` (R4). -/
def Params.ptrW (p : Params) : Nat := widthFor (p.tapeLen - 1)

/-- `PC_W`: the least `w >= 1` with `2^w > PROG_LEN` (R4). -/
def Params.pcW (p : Params) : Nat := widthFor p.progLen

/-- `STACK_DEPTH`: the capacity of the scan's bracket stack, `PROG_LEN` (R4, D8). -/
def Params.stackDepth (p : Params) : Nat := p.progLen

end Sys2Proof
end

