-- ==== Sys2Proof/Syntax.lean ====
section
/-! DEFINITION. The nine instructions, one constructor per row of spec/opcode_table.json. spec/30_encoding.md R46, R47. -/

namespace Sys2Proof

/-- The instruction set. No instruction has an explicit operand (R49). Every code unit outside the eight operators is a
`NOP` of its own (R47), so `nop` keeps which code unit it was: nothing reads it but the encoder, and by it the program
text can be read back from the instructions (R52). -/
inductive Instr where
  /-- `>`, RIGHT (R85). -/
  | right
  /-- `<`, LEFT (R86). -/
  | left
  /-- `+`, INC (R90). -/
  | inc
  /-- `-`, DEC (R91). -/
  | dec
  /-- `.`, OUT (R95). -/
  | output
  /-- `,`, IN (R96). -/
  | input
  /-- `[`, OPEN (R100). -/
  | openLoop
  /-- `]`, CLOSE (R101). -/
  | closeLoop
  /-- Any other code unit, NOP (R78). -/
  | nop (code : Nat)
  deriving DecidableEq, Repr

end Sys2Proof
end

