-- ==== Sys2Proof/WellFormed.lean ====
section
/-! DEFINITION. Which terms of `Instr` stand for an instruction of a machine with code units of a given width.
spec/30_encoding.md R46 to R48. -/

namespace Sys2Proof

/-- The code units of the eight operators, in the order of the table of R46 (PRESUMED by the spec itself, G1; unsafe for a
loader with another character code, log entry 9). -/
def operatorCodes : List Nat := [0x3E, 0x3C, 0x2B, 0x2D, 0x2E, 0x2C, 0x5B, 0x5D]

/-- A `NOP` is a code unit of `CHAR_W` bits that is none of the eight operators (R47); the operators have no operand to
check. -/
def Instr.wellFormed (charW : Nat) : Instr → Bool
  | .nop c => decide (c < 2 ^ charW) && !operatorCodes.contains c
  | .right | .left | .inc | .dec | .output | .input | .openLoop | .closeLoop => true

end Sys2Proof
end

