-- ==== Sys2Proof/Decode.lean ====
section
/-! DEFINITION. The decoder, total on every code unit, and the encoder. spec/30_encoding.md R45 to R48, R50, R52;
spec/opcode_table.json. There is no illegal encoding (R50), so the decoder rejects nothing. -/

namespace Sys2Proof

/-- The code unit of `[` (R46). -/
abbrev openCode : Nat := 0x5B

/-- The code unit of `]` (R46). -/
abbrev closeCode : Nat := 0x5D

/-- Decoding compares the code unit for equality with each of the eight values of R46; if none matches it is `NOP`
(R48). It depends on nothing but the code unit. -/
def decode (c : Nat) : Instr :=
  if c = 0x3E then .right
  else if c = 0x3C then .left
  else if c = 0x2B then .inc
  else if c = 0x2D then .dec
  else if c = 0x2E then .output
  else if c = 0x2C then .input
  else if c = openCode then .openLoop
  else if c = closeCode then .closeLoop
  else .nop c

/-- The code unit of an instruction, from the opcode map of R46 and R47. -/
def encode : Instr → Nat
  | .right => 0x3E
  | .left => 0x3C
  | .inc => 0x2B
  | .dec => 0x2D
  | .output => 0x2E
  | .input => 0x2C
  | .openLoop => openCode
  | .closeLoop => closeCode
  | .nop c => c

/-- The instructions of a program text, one per address: "the program text is its own assembly language and its own
machine code" (R52). -/
def decodeProgram (prog : List Nat) : List Instr := prog.map decode

/-- The program text of a list of instructions (R52). -/
def encodeProgram (is : List Instr) : List Nat := is.map encode

/-- The code unit whose bits are `w`, numbered as spec/opcode_table.json numbers them, every bit from `nbits` up being 0.
An instruction is one code unit of `charW` bits (R45, R51), so no bit above those belongs to it. -/
def tableCodeUnit (charW nbits w : Nat) : Nat := w % 2 ^ nbits % 2 ^ charW

/-- What the decoder reads from an instruction whose bits are `w`; the table's rows are 8 bits wide. -/
def decodeTableWord (nbits w : Nat) : Option Instr := some (decode (tableCodeUnit 8 nbits w))

end Sys2Proof
end

