-- ==== Sys2Proof/Machine/State.lean ====
section
/-! DEFINITION. The state of the machine as plain data, its stops, and the state after reset. spec/10_state.md R10 to
R24, spec/46_host_interface.md R106, R109 to R111. -/

namespace Sys2Proof.Machine

/-- The stage the machine is in (R18). -/
inductive Phase where
  | scan
  | run
  | halted
  | faulted
  deriving DecidableEq, Repr

/-- The fault register: which fatal error ended the run (R19). -/
inductive FaultCode where
  | none
  | syntaxClose
  | syntaxOpen
  | ioEof
  deriving DecidableEq, Repr

/-- The tape as (index, cell) pairs: indices strictly rising, no cell that is 0, since an unlisted cell reads 0 (R14). -/
abbrev Memory := List Host.Cell

/-- The jump table as (address, address) pairs, addresses strictly rising; an unlisted address has no entry (R13). -/
abbrev JumpTable := List (Nat × Nat)

/-- What the input stream offers to one poll (R109). -/
inductive Offer where
  | byte (b : Byte)
  | eof
  | notYet
  deriving DecidableEq, Repr

/-- One thing still to come on the input stream: a byte, or a poll that finds nothing yet (R110). -/
inductive Arrival where
  | byte (b : Byte)
  | wait
  deriving DecidableEq, Repr

/-- The input stream: what is still to come, and whether the stream ends after it. Where it does not end, the environment
offers nothing for ever (R110). A byte is neither withdrawn nor follows the end of the stream, by the shape of this type.

DESIGN CHOICE (log entry 17): `pending` is a finite list, so the stream brings finitely many bytes, with finitely many waits
before the last of them. The spec leaves open whether the byte sequence may be endless (R22: it "may end"; R110: "If the
sequence is finite"). Safe for a claim about any number of steps, which sees only finitely many offers; unsafe for a claim
about an endless run. -/
structure InStream where
  pending : List Arrival
  ended : Bool
  deriving DecidableEq, Repr

/-- The level of the input `rst` in one step (R106). While it is asserted the host presents the parameters of the next run
(R107, R108, R140), and a byte that was offered to an `IN` in that step counts as taken or not by the environment's own
account, `byteGone` (R141). -/
inductive RstPin where
  | released
  | asserted (params : Params) (byteGone : Bool)
  deriving DecidableEq, Repr

/-- The state: the tuple of R10, the parameters of the run (R4), the environment's two streams (R22), and the levels of
`rst` in the coming steps (released once the list is used up). -/
structure State where
  /-- `phase` (R18). -/
  phase : Phase
  /-- `fault` (R19). -/
  fault : FaultCode
  /-- `pc` (R16). -/
  pc : Nat
  /-- `ptr` (R15). -/
  ptr : Nat
  /-- `tape` (R14). -/
  tape : Memory
  /-- `jt` (R13). -/
  jt : JumpTable
  /-- `scan_i` (R21). -/
  scanI : Nat
  /-- `stack` (R21), its top first. -/
  stack : List Nat
  /-- `TAPE_LEN`, `CHAR_W`, `prog` (R4, R12). -/
  params : Params
  /-- The input stream (R22). -/
  input : InStream
  /-- The output stream, oldest byte first (R22, R111). -/
  output : List Byte
  /-- The levels of `rst` in the coming steps (R106). -/
  rst : List RstPin
  deriving DecidableEq, Repr

/-- The stops that are not the machine's own faults: the machine's three faults are next states in phase FAULTED (R123). -/
inductive Fault where
  /-- Raised by INC, DEC, OUT, IN, OPEN and CLOSE when `ptr` is not below `TAPE_LEN`: "cells at indices `>= TAPE_LEN` do not
  exist" (R87). Safe: the model stops, and no reachable state raises it (R25 a). -/
  | noSuchCell (index : Nat)
  /-- Raised by a taken OPEN or CLOSE where `jt` has no entry at `pc`: there "`jt` has no value" (R13, D7). Safe: the model
  stops, and no reachable state raises it (R66). -/
  | noJumpEntry (address : Nat)
  deriving DecidableEq, Repr

/-- Refusals. -/
inductive Refusal where
  /-- An instruction that has no meaning yet, by its mnemonic. Raised by no arm: every instruction has its meaning. Safe. -/
  | notModelled (mnemonic : String)
  deriving DecidableEq, Repr

/-- The machine as reset leaves it (R24), before a host has set parameters or shown anything on a stream: the default
parameters and the empty program (log entry 1), streams with nothing on them (log entry 2), `rst` released (log entry 3).
Each of the three is a DESIGN CHOICE, unsafe for a claim about `State.reset` alone. -/
def State.reset : State where
  phase := .scan
  fault := .none
  pc := 0
  ptr := 0
  tape := []
  jt := []
  scanI := 0
  stack := []
  params := { tapeLen := 4096, charW := 8, prog := [] }
  input := { pending := [], ended := false }
  output := []
  rst := []

end Sys2Proof.Machine
end

