-- ==== Sys2Proof/Machine/Ops.lean ====
section
/-! DEFINITION. The named operations over the tape, the jump table, the registers and the streams; raising a fault; reset.
spec/20_memory.md R31 to R33, spec/46_host_interface.md R106 to R111, spec/60_exceptions.md R123. -/

namespace Sys2Proof.Machine

/-! ### Tables of (index, value) pairs in rising order -/

/-- The value listed at an index. -/
def Sparse.get {α : Type} : List (Nat × α) → Nat → Option α
  | [], _ => none
  | (k, v) :: rest, a => if k = a then some v else Sparse.get rest a

/-- List a value at an index, in rising order, in place of what was listed there. -/
def Sparse.insert {α : Type} : List (Nat × α) → Nat → α → List (Nat × α)
  | [], a, v => [(a, v)]
  | (k, w) :: rest, a, v =>
    if a < k then (a, v) :: (k, w) :: rest
    else if a = k then (a, v) :: rest
    else (k, w) :: Sparse.insert rest a v

/-- List nothing at an index. -/
def Sparse.erase {α : Type} (m : List (Nat × α)) (a : Nat) : List (Nat × α) :=
  m.filter fun e => e.1 != a

/-- The indices of a table rise strictly. -/
abbrev Sparse.Rising {α : Type} (m : List (Nat × α)) : Prop :=
  m.Pairwise fun x y => x.1 < y.1

/-! ### The tape -/

/-- What a cell that is not listed reads as: "each initialized to 0" (R14). -/
def Memory.unlisted : Byte := 0

/-- `MemRead(a, 1)` (R32). -/
def Memory.read (m : Memory) (a : Nat) : Byte :=
  (Sparse.get m a).getD Memory.unlisted

/-- `MemWrite(a, 1, v)` (R32), keeping the canonical form. -/
def Memory.write (m : Memory) (a : Nat) (v : Byte) : Memory :=
  if v = Memory.unlisted then Sparse.erase m a else Sparse.insert m a v

/-- The canonical form of a tape: indices strictly rising, no cell listed at the value an unlisted one reads as. -/
abbrev Memory.wf (m : Memory) : Prop :=
  Sparse.Rising m ∧ ∀ e ∈ m, e.2 ≠ Memory.unlisted

/-- `tape[a]` (R6). -/
def State.cellAt (s : State) (a : Nat) : Byte := s.tape.read a

/-- `cell <- v`, that is `tape[ptr] <- v` (R6, R31). -/
def State.setCell (s : State) (v : Byte) : State := { s with tape := s.tape.write s.ptr v }

/-! ### The jump table -/

/-- `jt[a]`, where it has a value (R13). -/
def JumpTable.entry (t : JumpTable) (a : Nat) : Option Nat := Sparse.get t a

/-- The two writes `jt[o] <- c ; jt[c] <- o` of a matched pair (R63). -/
def JumpTable.link (t : JumpTable) (o c : Nat) : JumpTable :=
  Sparse.insert (Sparse.insert t o c) c o

/-! ### Program memory, the pointer and the program counter -/

/-- `prog[a]`, where `a < PROG_LEN` (R12). -/
def State.codeAt (s : State) (a : Nat) : Option Nat := s.params.prog[a]?

/-- Instruction fetch: `prog[pc]`, or nothing where `pc >= PROG_LEN` (R75). -/
def State.fetch (s : State) : Option Nat := s.codeAt s.pc

/-- `pc <- target + 1`: every advance, branches included (R77). -/
def State.goPast (s : State) (target : Nat) : State := { s with pc := target + 1 }

/-- `pc <- pc + 1` (R77 with `target = pc`). -/
def State.advance (s : State) : State := s.goPast s.pc

/-- `ptr <- p`. -/
def State.setPtr (s : State) (p : Nat) : State := { s with ptr := p }

/-- The index to the right of `p` on a circular tape of `n` cells (R85). -/
def rightOf (n p : Nat) : Nat := (p + 1) % n

/-- The index to the left of `p` on a circular tape of `n` cells (R86). -/
def leftOf (n p : Nat) : Nat := if p = 0 then n - 1 else p - 1

/-- `cell + 1`, wrapping at 255 (R90). -/
def incByte (v : Byte) : Byte := if v = 255 then 0 else v + 1

/-- `cell - 1`, wrapping at 0 (R91). -/
def decByte (v : Byte) : Byte := if v = 0 then 255 else v - 1

/-! ### The streams -/

/-- `InPoll()` on a stream (R109, R110). -/
def InStream.poll (i : InStream) : Offer :=
  match i.pending with
  | .byte b :: _ => .byte b
  | .wait :: _ => .notYet
  | [] => if i.ended then .eof else .notYet

/-- `InTake()` on a stream: the byte that was offered leaves it (R109). -/
def InStream.take (i : InStream) : InStream :=
  match i.pending with
  | .byte _ :: rest => { i with pending := rest }
  | _ => i

/-- The environment moves on after a poll that found nothing yet. What it offers to the next poll is its own choice (R110),
so it is whatever the stream holds next (DESIGN CHOICE, safe, log entry 8). -/
def InStream.wait (i : InStream) : InStream :=
  match i.pending with
  | .wait :: rest => { i with pending := rest }
  | _ => i

/-- The bytes still to come, in order. -/
def InStream.bytes (i : InStream) : List Byte :=
  i.pending.filterMap fun
    | .byte b => some b
    | .wait => none

/-- `InPoll()` (R109). -/
def State.inPoll (s : State) : Offer := s.input.poll

/-- `InTake()` (R109). -/
def State.inTake (s : State) : State := { s with input := s.input.take }

/-- A poll that found nothing yet: nothing of the machine changes (R96, R136). -/
def State.inWait (s : State) : State := { s with input := s.input.wait }

/-- `OutPut(b)` (R111). -/
def State.outPut (s : State) (b : Byte) : State := { s with output := s.output ++ [b] }

/-! ### Faults and reset -/

/-- `raise <Fault>()`: "one step with exactly two writes" (R123). There is no return from it (R125): what leaves FAULTED is
reset, next. -/
def State.raise (s : State) (code : FaultCode) : State := { s with phase := .faulted, fault := code }

/-- The reset state (R24) with the parameters the host presents. The streams are not the machine's and keep what they hold
(R143); so do the coming levels of `rst`. -/
def State.resetTo (s : State) (p : Params) : State :=
  { State.reset with params := p, input := s.input, output := s.output, rst := s.rst }

/-- The state a run starts from when the host has set the parameters and connected an input stream (R140, R144). -/
def State.launch (p : Params) (i : InStream) : State :=
  { State.reset with params := p, input := i }

/-- One level of `rst` has gone by. -/
def State.tick (s : State) : State := { s with rst := s.rst.tail }

end Sys2Proof.Machine
end

