-- ==== Sys2Proof/Machine/Scan.lean ====
section
/-! DEFINITION. The SCAN phase, one program address a step, and the jump table it builds as one function of the program.
spec/40_jump_table_scan.md. -/

namespace Sys2Proof.Machine

/-- What the scan does at address `a` holding `c`, to its stack and table (R62 to R64); nothing where a `]` meets an empty
stack (R63). -/
def scanUnit (a : Nat) (c : Nat) (stack : List Nat) (jt : JumpTable) : Option (List Nat × JumpTable) :=
  if c = openCode then some (a :: stack, jt)
  else if c = closeCode then
    match stack with
    | [] => none
    | o :: rest => some (rest, jt.link o a)
  else some (stack, jt)

/-- `ScanStep` (R61): one address, or the check at the end of the program (R65). After a syntax fault the table
keeps what was written (DESIGN CHOICE, unsafe for a claim about it there, log entry 6). -/
def scanStep (s : State) : State :=
  match s.codeAt s.scanI with
  | some c =>
    match scanUnit s.scanI c s.stack s.jt with
    | some (stack, jt) => { s with stack := stack, jt := jt, scanI := s.scanI + 1 }
    | none => s.raise .syntaxClose
  | none =>
    if s.stack.isEmpty then { s with phase := .run } else s.raise .syntaxOpen

/-- The rest of a scan at address `a`, with the given stack and table, over the code units from there on. -/
def scanFrom (a : Nat) (stack : List Nat) (jt : JumpTable) : List Nat → Except FaultCode JumpTable
  | [] => if stack.isEmpty then .ok jt else .error .syntaxOpen
  | c :: rest =>
    match scanUnit a c stack jt with
    | some (stack', jt') => scanFrom (a + 1) stack' jt' rest
    | none => .error .syntaxClose

/-- `BuildJump(prog)` (R68): the whole scan as one total function. -/
def buildJump (prog : List Nat) : Except FaultCode JumpTable := scanFrom 0 [] [] prog

end Sys2Proof.Machine
end

