-- ==== Sys2Proof/Machine/Loader.lean ====
section
/-! DEFINITION. The host's load of one instruction as a program whose scan is over, so that the next step runs it.
spec/46_host_interface.md R107, spec/40_jump_table_scan.md R68 (iii). -/

namespace Sys2Proof.Machine

/-- The shortest program that holds code unit `c` and passes the scan: a bracket brings its partner (R63, R65; DESIGN CHOICE,
safe, log entry 4). -/
def carrierProgram (c : Nat) : List Nat :=
  if c = openCode ∨ c = closeCode then [openCode, closeCode] else [c]

/-- The address of `c` in that program. -/
def carrierAddr (c : Nat) : Nat := if c = closeCode then 1 else 0

/-- The jump table of that program, as its scan leaves it. -/
def carrierTable (c : Nat) : JumpTable :=
  if c = openCode ∨ c = closeCode then [(0, 1), (1, 0)] else []

/-- The program fits in the width its code unit fits in. -/
theorem carrierProgram_fits {charW c : Nat} (hw : 7 ≤ charW) (hc : c < 2 ^ charW) :
    progFits charW (carrierProgram c) = true := by
  have h : 2 ^ 7 ≤ 2 ^ charW := Nat.pow_le_pow_right (by decide) hw
  unfold carrierProgram
  split
  · simp only [progFits, List.all_cons, List.all_nil, Bool.and_true, Bool.and_eq_true, decide_eq_true_eq]
    exact ⟨Nat.lt_of_lt_of_le (by decide) h, Nat.lt_of_lt_of_le (by decide) h⟩
  · simpa [progFits] using hc

/-- The parameters with that program in place of the old one. -/
def loadParams (p : Params) (nbits w : Nat) : Params where
  tapeLen := p.tapeLen
  charW := p.charW
  prog := carrierProgram (tableCodeUnit p.charW nbits w)
  tapeLen_pos := p.tapeLen_pos
  charW_ge := p.charW_ge
  prog_fits := carrierProgram_fits p.charW_ge (Nat.mod_lt _ (Nat.two_pow_pos _))

/-- The state about to run the instruction whose bits are `w`: its program loaded and scanned, phase RUN, `pc` at it, `rst`
released. The pointer, the tape and both streams stay as they are. -/
def State.loadTableWord (s : State) (nbits w : Nat) : State :=
  { s with
    phase := .run
    fault := .none
    pc := carrierAddr (tableCodeUnit s.params.charW nbits w)
    jt := carrierTable (tableCodeUnit s.params.charW nbits w)
    scanI := (loadParams s.params nbits w).progLen
    stack := []
    params := loadParams s.params nbits w
    rst := [] }

end Sys2Proof.Machine
end

