-- ==== Sys2Proof/Machine/Flags.lean ====
section
/-! DEFINITION. The one condition any instruction tests. spec/10_state.md R17: no flag is stored. -/

namespace Sys2Proof.Machine

/-- `Z`, of a cell's value (R17). -/
def isZero (v : Byte) : Bool := v == 0

/-- `Z = (tape[ptr] = 0)`, "a function of state, not state" (R17). -/
def State.zeroFlag (s : State) : Bool := isZero (s.cellAt s.ptr)

end Sys2Proof.Machine
end

