-- ==== Sys2Proof/Machine/Operands.lean ====
section
/-! DEFINITION. The implicit operands: the current cell, and the branch target. spec/20_memory.md R31, R32,
spec/30_encoding.md R49, spec/41_sequencer.md R77. -/

namespace Sys2Proof.Machine

/-- What an instruction answers. -/
abbrev Result := Host.Outcome State Fault Refusal

/-- Go on with the value of the current cell `tape[ptr]`. An index `>= TAPE_LEN` is no cell (R87), which R25 (a) rules out
in every reachable state. -/
def onCell (s : State) (k : Byte → Result) : Result :=
  if s.ptr < s.params.tapeLen then k (s.cellAt s.ptr) else .fault (.noSuchCell s.ptr)

/-- The advance of a conditional branch (R77): past `jt[pc]` if taken, past `pc` if not. The table is read only when the
branch is taken (R100, R101). -/
def branch (taken : Bool) (s : State) : Result :=
  if taken then
    match s.jt.entry s.pc with
    | some target => .next (s.goPast target)
    | none => .fault (.noJumpEntry s.pc)
  else .next s.advance

end Sys2Proof.Machine
end

