-- ==== Sys2Proof/Machine/CellArithmetic.lean ====
section
/-! DEFINITION. INC and DEC. spec/43_cell_arithmetic.md. -/

namespace Sys2Proof.Machine

/-- INC (R90). -/
def execInc (s : State) : Result :=
  onCell s fun v => .next (s.setCell (incByte v)).advance

/-- DEC (R91). -/
def execDec (s : State) : Result :=
  onCell s fun v => .next (s.setCell (decByte v)).advance

end Sys2Proof.Machine
end

