-- ==== Sys2Proof/Machine/InputOutput.lean ====
section
/-! DEFINITION. OUT and IN. spec/44_io.md. -/

namespace Sys2Proof.Machine

/-- OUT (R95). It never waits (R111). -/
def execOutput (s : State) : Result :=
  onCell s fun v => .next (s.outPut v).advance

/-- IN (R96), by what the input stream offers. At the end of the stream it raises `IO_EOF` and nothing else happens; when
nothing is there yet the machine stays at this IN, and only the environment moves on. -/
def execInput (s : State) : Result :=
  match s.inPoll with
  | .byte b => onCell s fun _ => .next (s.inTake.setCell b).advance
  | .eof => .next (s.raise .ioEof)
  | .notYet => .next s.inWait

end Sys2Proof.Machine
end

