-- ==== Sys2Proof/Machine/Loops.lean ====
section
/-! DEFINITION. OPEN and CLOSE. spec/45_loops.md. -/

namespace Sys2Proof.Machine

/-- OPEN (R100): taken if the current cell is zero. -/
def execOpenLoop (s : State) : Result :=
  onCell s fun v => branch (isZero v) s

/-- CLOSE (R101): taken if the current cell is not zero. -/
def execCloseLoop (s : State) : Result :=
  onCell s fun v => branch (!isZero v) s

end Sys2Proof.Machine
end

