-- ==== Sys2Proof/Machine/NoOperation.lean ====
section
/-! DEFINITION. NOP. spec/41_sequencer.md R78. -/

namespace Sys2Proof.Machine

/-- NOP (R78): the code unit it stands for has no further effect. -/
def execNop (_code : Nat) (s : State) : Result := .next s.advance

end Sys2Proof.Machine
end

