-- ==== Sys2Proof/Machine/PointerMoves.lean ====
section
/-! DEFINITION. RIGHT and LEFT. spec/42_pointer_moves.md. -/

namespace Sys2Proof.Machine

/-- RIGHT (R85). -/
def execRight (s : State) : Result :=
  .next (s.setPtr (rightOf s.params.tapeLen s.ptr)).advance

/-- LEFT (R86). -/
def execLeft (s : State) : Result :=
  .next (s.setPtr (leftOf s.params.tapeLen s.ptr)).advance

end Sys2Proof.Machine
end

