-- ==== Sys2Proof/Machine/Dispatch.lean ====
section
/-! DEFINITION. The execution of one decoded instruction: steps (4) and (5) of spec/41_sequencer.md R75. -/

namespace Sys2Proof.Machine

def exec (i : Instr) (s : State) : Host.Outcome State Fault Refusal :=
  match i with
  | .right => Sys2Proof.Machine.execRight s
  | .left => Sys2Proof.Machine.execLeft s
  | .inc => Sys2Proof.Machine.execInc s
  | .dec => Sys2Proof.Machine.execDec s
  | .output => Sys2Proof.Machine.execOutput s
  | .input => Sys2Proof.Machine.execInput s
  | .openLoop => Sys2Proof.Machine.execOpenLoop s
  | .closeLoop => Sys2Proof.Machine.execCloseLoop s
  | .nop code => Sys2Proof.Machine.execNop code s

end Sys2Proof.Machine
end

