-- ==== Sys2Proof/Machine/Ports.lean ====
section
/-! DEFINITION. The ports as functions of the state, and the input pins as an offer. spec/46_host_interface.md R105, R109,
R111 to R113, R115. A signal whose value the spec leaves unspecified when it is not valid (R115) is an `Option`. -/

namespace Sys2Proof.Machine

/-- `done` (R20, R112). -/
def State.done (s : State) : Bool :=
  match s.phase with
  | .scan | .run => false
  | .halted | .faulted => true

/-- `status`: the exit status, 1 for a fault (R20, R112). -/
def State.status (s : State) : Bool :=
  match s.phase with
  | .scan | .run | .halted => false
  | .faulted => true

/-- The bits of `phase` (R18). -/
def Phase.bits : Phase → BitVec 2
  | .scan => 0b00
  | .run => 0b01
  | .halted => 0b10
  | .faulted => 0b11

/-- The bits of `fault` (R19, R121). -/
def FaultCode.bits : FaultCode → BitVec 2
  | .none => 0b00
  | .syntaxClose => 0b01
  | .syntaxOpen => 0b10
  | .ioEof => 0b11

/-- The three input pins `in_valid`, `in_eof`, `in_data` as an offer; a byte wins over the end of the stream (R109). -/
def offerOfPins (inValid inEof : Bool) (inData : Byte) : Offer :=
  if inValid then .byte inData else if inEof then .eof else .notYet

/-- `rst` is asserted in this step (R106). -/
def State.rstAsserted (s : State) : Bool :=
  match s.rst with
  | .asserted _ _ :: _ => true
  | _ => false

/-- The instruction this step executes, when it executes one: phase RUN and an address inside the program (R75). -/
def State.executing (s : State) : Option Instr :=
  match s.phase with
  | .run => s.fetch.map decode
  | _ => none

/-- An IN that executes in this step is offered a byte. -/
def State.byteOffered (s : State) : Bool :=
  s.executing == some .input &&
    match s.inPoll with
    | .byte _ => true
    | _ => false

/-- `in_ready`: 1 exactly in a step in which an IN takes a byte (R109). With `rst` asserted in the same step the
environment's account decides (R141). -/
def State.inReady (s : State) : Bool :=
  s.byteOffered &&
    match s.rst with
    | .asserted _ byteGone :: _ => byteGone
    | _ => true

/-- `out_valid`: 1 exactly in a step in which an OUT executes (R111). -/
def State.outValid (s : State) : Bool :=
  s.executing == some .output && !s.rstAsserted

/-- `out_data`, where `out_valid` is 1 (R111, R115). -/
def State.outData (s : State) : Option Byte :=
  if s.outValid then some (s.cellAt s.ptr) else none

/-- `prog_addr`, where it is specified: the scan index in SCAN and `pc` in RUN, always inside the program (R107, R115). -/
def State.progAddr (s : State) : Option Nat :=
  match s.phase with
  | .scan => if s.scanI < s.params.progLen then some s.scanI else none
  | .run => if s.pc < s.params.progLen then some s.pc else none
  | .halted | .faulted => none

/-- `obs_pc` (R113). -/
def State.obsPc (s : State) : Nat := s.pc

/-- `obs_ptr` (R113). -/
def State.obsPtr (s : State) : Nat := s.ptr

/-- `obs_phase` (R113). -/
def State.obsPhase (s : State) : BitVec 2 := s.phase.bits

/-- `obs_data` for `obs_addr = a`: a cell of the tape, defined only while `done = 1` (R113, R115). -/
def State.obsData (s : State) (a : Nat) : Option Byte :=
  if s.done && decide (a < s.params.tapeLen) then some (s.cellAt a) else none

end Sys2Proof.Machine
end

