-- ==== Sys2Proof/Machine/Sequencer.lean ====
section
/-! DEFINITION. One step of the machine, by phase, and the input `rst` over it. spec/41_sequencer.md R75 to R79,
spec/70_reset_and_hazards.md R140 to R143. -/

namespace Sys2Proof.Machine

/-- One step of phase RUN (R75): the halting step where `pc >= PROG_LEN` and there is nothing to fetch (R76), else one
instruction. -/
def runStep (s : State) : Result :=
  match s.fetch with
  | none => .next { s with phase := .halted }
  | some c => exec (decode c) s

/-- One step with `rst` released, by phase. In a terminal phase "the machine has no step" (R79): its state is held
(DESIGN CHOICE, safe, log entry 7). -/
def releasedStep (s : State) : Result :=
  match s.phase with
  | .scan => .next (scanStep s)
  | .run => runStep s
  | .halted => .next s
  | .faulted => .next s

/-- One step with `rst` asserted: "the state after a step in which `rst` is asserted is the reset state" (R141). A byte
that an IN was taking in this step has left the stream if the environment counts it as taken (R141). -/
def assertedStep (s : State) (p : Params) : State :=
  { s.tick.resetTo p with input := if s.inReady then s.input.take else s.input }

/-- One step, by the level of `rst`. -/
def clockedStep (s : State) : Result :=
  match s.rst with
  | .asserted p _ :: _ => .next (assertedStep s p)
  | _ => releasedStep s.tick

end Sys2Proof.Machine
end

