-- ==== Sys2Proof/Machine/Step.lean ====
section
/-! DEFINITION. The step function and the state about to run one given instruction. -/

namespace Sys2Proof.Machine

/-- One step of the machine. -/
def step (s : State) : Host.Outcome State Fault Refusal := Sys2Proof.Machine.clockedStep s

/-- `s` with the instruction whose bits are `w` loaded and selected, so that the next step runs it. -/
def State.withFetchWord (s : State) (nbits w : Nat) : State := s.loadTableWord nbits w

end Sys2Proof.Machine
end

