-- ==== Sys2Proof/Safety.lean ====
section
/-! DEFINITION. The terms claims are stated in: runs, bracket matching, and the invariant of every reachable state.
spec/10_state.md R25, spec/40_jump_table_scan.md R66, R69. -/

namespace Sys2Proof.Machine

/-! ### Runs -/

/-- `k` steps, stopping at the first stop. -/
def runSteps : Nat → State → Result
  | 0, s => .next s
  | k + 1, s =>
    match step s with
    | .next t => runSteps k t
    | .fault r => .fault r
    | .refused r => .refused r

/-- `k` executions of one instruction in a row, stopping at the first stop. -/
def repeatExec : Nat → Instr → State → Result
  | 0, _, s => .next s
  | k + 1, i, s =>
    match exec i s with
    | .next t => repeatExec k i t
    | .fault r => .fault r
    | .refused r => .refused r

/-! ### Bracket matching, from the text alone (R66) -/

/-- How many code units `c` stand at the addresses from `a` up to but not including `b`. -/
def countIn (c : Nat) (prog : List Nat) (a b : Nat) : Nat :=
  ((prog.take b).drop a).count c

/-- The text from address `a` up to but not including `b` "contains equally many `[` and `]`" (R66 c). -/
def BalancedIn (prog : List Nat) (a b : Nat) : Prop :=
  countIn openCode prog a b = countIn closeCode prog a b

/-- `c` holds the `]` that matches the `[` at `o`: the least `c > o` such that the text from `o` to `c` inclusive is
balanced (R66 c). -/
structure Matches (prog : List Nat) (o c : Nat) : Prop where
  opens : prog[o]? = some openCode
  closes : prog[c]? = some closeCode
  lt : o < c
  balanced : BalancedIn prog o (c + 1)
  least : ∀ d, o < d → d < c → ¬ BalancedIn prog o (d + 1)

/-- Address `a` holds a bracket. -/
def IsBracket (prog : List Nat) (a : Nat) : Prop :=
  prog[a]? = some openCode ∨ prog[a]? = some closeCode

/-- The "complete symmetric jump table" of a program (R13, R66): its domain is the bracket addresses, every pair of entries
is symmetric, and each joins a `[` with its matching `]`. -/
structure CompleteTable (prog : List Nat) (jt : JumpTable) : Prop where
  domain : ∀ a, (∃ t, jt.entry a = some t) ↔ IsBracket prog a
  symmetric : ∀ a t, jt.entry a = some t → jt.entry t = some a
  matching : ∀ a t, jt.entry a = some t → Matches prog a t ∨ Matches prog t a

/-- Some text from address 0 on contains more `]` than `[`: a `]` that meets an empty stack (R63, R69). -/
def StrayClose (prog : List Nat) : Prop :=
  ∃ n, n ≤ prog.length ∧ countIn openCode prog 0 n < countIn closeCode prog 0 n

/-- Every text from address 0 on contains at least as many `[` as `]`, and the whole equally many (R66 d). -/
def BalancedProgram (prog : List Nat) : Prop :=
  ¬ StrayClose prog ∧ BalancedIn prog 0 prog.length

/-! ### What single steps are held against -/

/-- `target` of R77: `jt[pc]` for an OPEN at a zero cell and for a CLOSE at a nonzero one, "`pc` in every other case". -/
def advanceTarget (i : Instr) (s : State) : Option Nat :=
  match i with
  | .openLoop => if s.cellAt s.ptr = 0 then s.jt.entry s.pc else some s.pc
  | .closeLoop => if s.cellAt s.ptr = 0 then some s.pc else s.jt.entry s.pc
  | .right | .left | .inc | .dec | .output | .input | .nop _ => some s.pc

/-- The "exact condition" of each fault in the table of R121. -/
def RaisesWhen (s : State) : FaultCode → Prop
  | .none => False
  | .syntaxClose => s.phase = .scan ∧ s.params.prog[s.scanI]? = some closeCode ∧ s.stack = []
  | .syntaxOpen => s.phase = .scan ∧ s.params.progLen ≤ s.scanI ∧ s.stack ≠ []
  | .ioEof => s.phase = .run ∧ s.params.prog[s.pc]? = some 0x2C ∧ s.inPoll = .eof

/-- A result with another output stream put before what it holds: the same stop, or the same next state with the bytes of
`before` in front. -/
def withEarlierOutput (before : List Byte) : Result → Result
  | .next t => .next { t with output := before ++ t.output }
  | .fault r => .fault r
  | .refused r => .refused r

/-- A result with another input stream in place of its own. -/
def withInput (i : InStream) : Result → Result
  | .next t => .next { t with input := i }
  | .fault r => .fault r
  | .refused r => .refused r

/-! ### The invariant of every reachable state (R25) -/

/-- What holds in every reachable state: R25 (a) to (g), the canonical form of the two tables, what the scan has done so
far, and what the two kinds of fault leave behind (R124). R25 (c) holds by the type of a cell. -/
structure Inv (s : State) : Prop where
  ptr_lt : s.ptr < s.params.tapeLen
  pc_le : s.pc ≤ s.params.progLen
  tape_wf : Memory.wf s.tape
  tape_lt : ∀ e ∈ s.tape, e.1 < s.params.tapeLen
  jt_rising : Sparse.Rising s.jt
  fault_iff : s.fault ≠ .none ↔ s.phase = .faulted
  scan_untouched : s.phase = .scan → s.pc = 0 ∧ s.ptr = 0 ∧ s.tape = []
  scan_bound : s.phase = .scan → s.scanI ≤ s.params.progLen ∧ s.stack.length ≤ s.scanI
  scan_stack : s.phase = .scan → ∀ o ∈ s.stack, o < s.scanI ∧ s.params.prog[o]? = some openCode
  scan_ahead : s.phase = .scan →
    scanFrom s.scanI s.stack s.jt (s.params.prog.drop s.scanI) = buildJump s.params.prog
  table : s.phase = .run ∨ s.phase = .halted → buildJump s.params.prog = .ok s.jt
  halted_pc : s.phase = .halted → s.pc = s.params.progLen
  bad_brackets : s.fault = .syntaxClose ∨ s.fault = .syntaxOpen →
    s.pc = 0 ∧ s.ptr = 0 ∧ s.tape = [] ∧ buildJump s.params.prog = .error s.fault
  end_of_input : s.fault = .ioEof →
    buildJump s.params.prog = .ok s.jt ∧ s.fetch = some 0x2C

end Sys2Proof.Machine
end

