-- ==== Sys2Proof/Certificates/Slice0/Obligations.lean ====
section
/-! DEFINITION. The statements about the machine, from the numbered rules of spec/. OBLIGATIONS.json lists them. -/

open Sys2Proof Sys2Proof.Machine

/-! ### Reset -/

/-- `State.reset` holds the values of R24's table. The parameters and what the streams and `rst` hold are the model's choice
(log entries 1, 2, 3), so nothing is said of them here. -/
def Obligations.StateResetValues : Prop :=
  State.reset.phase = .scan ∧ State.reset.fault = .none ∧ State.reset.pc = 0 ∧ State.reset.ptr = 0 ∧
  (∀ a, State.reset.cellAt a = 0) ∧ (∀ a, State.reset.jt.entry a = none) ∧ State.reset.scanI = 0 ∧
  State.reset.stack = [] ∧ State.reset.done = false ∧ State.reset.status = false

/-- R24, R141, R142, R143: a step with `rst` asserted gives the reset state, whatever the machine was doing, with the
parameters the host presents; the streams stay, but for a byte that an IN was being offered and that the environment counts
as taken. That the step carries the parameters, the later levels of `rst` and that account is the model's DESIGN CHOICE, and
that an OUT in this step puts nothing out is DEDUCED: log entry 3. -/
def Obligations.RstGivesResetState : Prop :=
  ∀ (s : State) (p : Params) (gone : Bool) (rest : List RstPin), s.rst = .asserted p gone :: rest →
    ∃ t, step s = .next t ∧
      t.phase = .scan ∧ t.fault = .none ∧ t.pc = 0 ∧ t.ptr = 0 ∧
      (∀ a, t.cellAt a = 0) ∧ (∀ a, t.jt.entry a = none) ∧ t.scanI = 0 ∧ t.stack = [] ∧
      t.done = false ∧ t.status = false ∧
      t.params = p ∧ t.rst = rest ∧ t.output = s.output ∧
      t.input = if s.byteOffered && gone then s.input.take else s.input

/-! ### Encoding -/

/-- Words written out from the table of R46 (whose numbers are the spec's general knowledge G1), and NOPs of R47 and R135,
decode to what they stand for. -/
def Obligations.OperatorWordsDecode : Prop :=
  decode 0b00111110 = .right ∧ decode 0b00111100 = .left ∧ decode 0b00101011 = .inc ∧ decode 0b00101101 = .dec ∧
  decode 0b00101110 = .output ∧ decode 0b00101100 = .input ∧ decode 0b01011011 = .openLoop ∧
  decode 0b01011101 = .closeLoop ∧ decode 0x00 = .nop 0x00 ∧ decode 0x0A = .nop 0x0A ∧ decode 0x23 = .nop 0x23 ∧
  decode 0xFF = .nop 0xFF ∧ decode 0x12B = .nop 0x12B

/-- R48: every code unit decodes to the operator whose code it equals, and to NOP if it equals none. -/
def Obligations.DecodeIsTheOpcodeMap : Prop :=
  ∀ c : Nat,
    (decode c = .right ↔ c = 0x3E) ∧ (decode c = .left ↔ c = 0x3C) ∧ (decode c = .inc ↔ c = 0x2B) ∧
    (decode c = .dec ↔ c = 0x2D) ∧ (decode c = .output ↔ c = 0x2E) ∧ (decode c = .input ↔ c = 0x2C) ∧
    (decode c = .openLoop ↔ c = 0x5B) ∧ (decode c = .closeLoop ↔ c = 0x5D) ∧
    (∀ d, decode c = .nop d ↔ d = c ∧ c ∉ operatorCodes)

/-- R52: the program text is its own machine code. Encoding then decoding a list of well-formed instructions gives it back
and fits the width of a code unit; decoding then encoding a program gives its text back, out of well-formed instructions. -/
def Obligations.ProgramTextRoundTrip : Prop :=
  ∀ charW, 7 ≤ charW →
    (∀ is : List Instr, (∀ i ∈ is, i.wellFormed charW = true) →
      decodeProgram (encodeProgram is) = is ∧ progFits charW (encodeProgram is) = true) ∧
    (∀ prog : List Nat, progFits charW prog = true →
      encodeProgram (decodeProgram prog) = prog ∧ ∀ i ∈ decodeProgram prog, i.wellFormed charW = true)

/-! ### The RUN phase -/

/-- R75: a RUN step with `rst` released fetches `prog[pc]`, decodes it and runs it, on the state with one level of `rst` gone
by (log entry 3). -/
def Obligations.StepRunsFetchedInstruction : Prop :=
  ∀ (s : State) (c : Nat), s.rstAsserted = false → s.phase = .run → s.params.prog[s.pc]? = some c →
    step s = exec (decode c) { s with rst := s.rst.tail }

/-- The word loaded by `withFetchWord` is what the next step runs, for every number of table bits, every word and every
`CHAR_W`: the instruction decoded from the code unit the word stands for, which is the word itself where it fits, and what
`decodeTableWord` reads where the table's 8 bits fit in a code unit. The load keeps the invariant (the model's loader, DESIGN
CHOICE, log entry 4). -/
def Obligations.LoadedWordRuns : Prop :=
  ∀ (s : State) (nbits w : Nat),
    step (s.withFetchWord nbits w) = exec (decode (tableCodeUnit s.params.charW nbits w)) (s.withFetchWord nbits w) ∧
    (w < 2 ^ nbits → w < 2 ^ s.params.charW →
      step (s.withFetchWord nbits w) = exec (decode w) (s.withFetchWord nbits w)) ∧
    (nbits ≤ 8 → 8 ≤ s.params.charW →
      ∃ i, decodeTableWord nbits w = some i ∧ step (s.withFetchWord nbits w) = exec i (s.withFetchWord nbits w)) ∧
    (Inv s → Inv (s.withFetchWord nbits w))

/-- R76: with nothing left to fetch the step changes `phase` to HALTED and nothing else; `done` becomes 1, `status` is 0. -/
def Obligations.HaltingStep : Prop :=
  ∀ s : State, s.rstAsserted = false → s.phase = .run → s.params.progLen ≤ s.pc →
    ∃ t, step s = .next t ∧ t = { s with phase := .halted, rst := s.rst.tail } ∧ t.done = true ∧ t.status = false

/-- R79: in HALTED and FAULTED everything holds for as long as reset is not asserted. -/
def Obligations.TerminalPhasesHold : Prop :=
  ∀ s : State, s.rstAsserted = false → s.phase = .halted ∨ s.phase = .faulted →
    step s = .next { s with rst := s.rst.tail }

/-! ### Results of the instructions, each its own completion -/

/-- R78. -/
def Obligations.NopCompletes : Prop :=
  ∀ (c : Nat) (s : State), exec (.nop c) s = .next { s with pc := s.pc + 1 }

/-- R85, and its corner case that the last index gives 0. -/
def Obligations.RightCompletes : Prop :=
  ∀ s : State,
    exec .right s = .next { s with ptr := (s.ptr + 1) % s.params.tapeLen, pc := s.pc + 1 } ∧
    (s.ptr = s.params.tapeLen - 1 → ∃ t, exec .right s = .next t ∧ t.ptr = 0)

/-- R86, and its equivalent form on every pointer of the tape. -/
def Obligations.LeftCompletes : Prop :=
  ∀ s : State,
    exec .left s =
      .next { s with ptr := if s.ptr = 0 then s.params.tapeLen - 1 else s.ptr - 1, pc := s.pc + 1 } ∧
    (s.ptr < s.params.tapeLen →
      ∃ t, exec .left s = .next t ∧ t.ptr = (s.ptr + s.params.tapeLen - 1) % s.params.tapeLen)

/-- R90. -/
def Obligations.IncCompletes : Prop :=
  ∀ s : State, s.ptr < s.params.tapeLen →
    ∃ t, exec .inc s = .next t ∧
      t.cellAt s.ptr = (if s.cellAt s.ptr = 255 then 0 else s.cellAt s.ptr + 1) ∧
      (t.cellAt s.ptr).toNat = ((s.cellAt s.ptr).toNat + 1) % 256 ∧
      (∀ a, a ≠ s.ptr → t.cellAt a = s.cellAt a) ∧
      t = { s with tape := t.tape, pc := s.pc + 1 }

/-- R91. -/
def Obligations.DecCompletes : Prop :=
  ∀ s : State, s.ptr < s.params.tapeLen →
    ∃ t, exec .dec s = .next t ∧
      t.cellAt s.ptr = (if s.cellAt s.ptr = 0 then 255 else s.cellAt s.ptr - 1) ∧
      (t.cellAt s.ptr).toNat = ((s.cellAt s.ptr).toNat + 255) % 256 ∧
      (∀ a, a ≠ s.ptr → t.cellAt a = s.cellAt a) ∧
      t = { s with tape := t.tape, pc := s.pc + 1 }

/-- R95. -/
def Obligations.OutCompletes : Prop :=
  ∀ s : State, s.ptr < s.params.tapeLen →
    exec .output s = .next { s with output := s.output ++ [s.cellAt s.ptr], pc := s.pc + 1 }

/-- R96, its three cases: a byte is taken from the stream and stored; at the end of the stream `IO_EOF` is raised and nothing
else happens; when nothing is there yet nothing of the machine changes and no byte leaves the stream. Where R96 says "no
step", that the wait answers a next state, with the environment moved on, is the model's DESIGN CHOICE: log entry 8. -/
def Obligations.InCompletes : Prop :=
  ∀ s : State,
    (∀ b, s.inPoll = .byte b → s.ptr < s.params.tapeLen →
      ∃ t, exec .input s = .next t ∧ t.cellAt s.ptr = b ∧ (∀ a, a ≠ s.ptr → t.cellAt a = s.cellAt a) ∧
        s.input.bytes = b :: t.input.bytes ∧ t.input.ended = s.input.ended ∧
        t = { s with tape := t.tape, input := t.input, pc := s.pc + 1 }) ∧
    (s.inPoll = .eof → exec .input s = .next { s with phase := .faulted, fault := .ioEof }) ∧
    (s.inPoll = .notYet →
      ∃ i : InStream, i.bytes = s.input.bytes ∧ i.ended = s.input.ended ∧
        exec .input s = .next { s with input := i })

/-- R100. -/
def Obligations.OpenCompletes : Prop :=
  ∀ s : State, s.ptr < s.params.tapeLen →
    (s.cellAt s.ptr = 0 → ∀ target, s.jt.entry s.pc = some target →
      exec .openLoop s = .next { s with pc := target + 1 }) ∧
    (s.cellAt s.ptr ≠ 0 → exec .openLoop s = .next { s with pc := s.pc + 1 })

/-- R101. -/
def Obligations.CloseCompletes : Prop :=
  ∀ s : State, s.ptr < s.params.tapeLen →
    (s.cellAt s.ptr ≠ 0 → ∀ target, s.jt.entry s.pc = some target →
      exec .closeLoop s = .next { s with pc := target + 1 }) ∧
    (s.cellAt s.ptr = 0 → exec .closeLoop s = .next { s with pc := s.pc + 1 })

/-- R103 with R66: in a reachable RUN state an OPEN at a zero cell goes one past the `]` that matches it in the text, and a
CLOSE at a nonzero cell one past the `[` that matches it. -/
def Obligations.BranchesGoToMatchingBracket : Prop :=
  ∀ (s : State) (o c : Nat), Inv s → s.phase = .run → Matches s.params.prog o c →
    (s.pc = o → s.cellAt s.ptr = 0 → exec .openLoop s = .next { s with pc := c + 1 }) ∧
    (s.pc = c → s.cellAt s.ptr ≠ 0 → exec .closeLoop s = .next { s with pc := o + 1 })

/-! ### Laws of repeated execution -/

/-- R86: "`LEFT` undoes `RIGHT` and `RIGHT` undoes `LEFT` at every `ptr` and every `TAPE_LEN`". -/
def Obligations.LeftAndRightUndoEachOther : Prop :=
  ∀ s : State, s.ptr < s.params.tapeLen →
    (∃ t u, exec .right s = .next t ∧ exec .left t = .next u ∧ u.ptr = s.ptr) ∧
    (∃ t u, exec .left s = .next t ∧ exec .right t = .next u ∧ u.ptr = s.ptr)

/-- R85: "`TAPE_LEN` executions of `RIGHT` in a row return `ptr` to where it was". -/
def Obligations.RightRoundTheTape : Prop :=
  ∀ s : State, s.ptr < s.params.tapeLen →
    repeatExec s.params.tapeLen .right s = .next { s with pc := s.pc + s.params.tapeLen }

/-- R91: "`DEC` undoes `INC` and `INC` undoes `DEC` at every value"; on a canonical tape the whole tape comes back. -/
def Obligations.IncAndDecUndoEachOther : Prop :=
  ∀ s : State, s.ptr < s.params.tapeLen → Memory.wf s.tape →
    (∃ t, exec .inc s = .next t ∧ exec .dec t = .next { s with pc := s.pc + 2 }) ∧
    (∃ t, exec .dec s = .next t ∧ exec .inc t = .next { s with pc := s.pc + 2 })

/-- R90: "256 executions of `INC` on one cell return it to its value". -/
def Obligations.IncRoundTheByte : Prop :=
  ∀ s : State, s.ptr < s.params.tapeLen → Memory.wf s.tape →
    repeatExec 256 .inc s = .next { s with pc := s.pc + 256 }

/-! ### Frames -/

/-- RIGHT and LEFT change `ptr` and `pc` only. -/
def Obligations.PointerMoveFrame : Prop :=
  ∀ (i : Instr) (s t : State), i = .right ∨ i = .left → exec i s = .next t →
    t.phase = s.phase ∧ t.fault = s.fault ∧ (∀ a, t.cellAt a = s.cellAt a) ∧ t.jt = s.jt ∧ t.scanI = s.scanI ∧
    t.stack = s.stack ∧ t.params = s.params ∧ t.input = s.input ∧ t.output = s.output ∧ t.rst = s.rst

/-- OPEN, CLOSE and NOP change `pc` only. -/
def Obligations.BranchAndNopFrame : Prop :=
  ∀ (i : Instr) (s t : State), i = .openLoop ∨ i = .closeLoop ∨ (∃ c, i = .nop c) → exec i s = .next t →
    t.phase = s.phase ∧ t.fault = s.fault ∧ t.ptr = s.ptr ∧ (∀ a, t.cellAt a = s.cellAt a) ∧ t.jt = s.jt ∧
    t.scanI = s.scanI ∧ t.stack = s.stack ∧ t.params = s.params ∧ t.input = s.input ∧ t.output = s.output ∧
    t.rst = s.rst

/-- INC and DEC store to the cell at `ptr` and change nothing else but `pc`. -/
def Obligations.CellArithmeticFrame : Prop :=
  ∀ (i : Instr) (s t : State), i = .inc ∨ i = .dec → exec i s = .next t →
    t.phase = s.phase ∧ t.fault = s.fault ∧ t.ptr = s.ptr ∧ (∀ a, a ≠ s.ptr → t.cellAt a = s.cellAt a) ∧
    t.jt = s.jt ∧ t.scanI = s.scanI ∧ t.stack = s.stack ∧ t.params = s.params ∧ t.input = s.input ∧
    t.output = s.output ∧ t.rst = s.rst

/-- OUT stores nothing and changes nothing but `pc` and the output stream. -/
def Obligations.OutFrame : Prop :=
  ∀ s t : State, exec .output s = .next t →
    t.phase = s.phase ∧ t.fault = s.fault ∧ t.ptr = s.ptr ∧ (∀ a, t.cellAt a = s.cellAt a) ∧ t.jt = s.jt ∧
    t.scanI = s.scanI ∧ t.stack = s.stack ∧ t.params = s.params ∧ t.input = s.input ∧ t.rst = s.rst

/-- IN stores to the cell at `ptr`, and only when a byte is offered; `phase` and `fault` change only at the end of the
stream; nothing else changes but `pc` and the input stream. -/
def Obligations.InFrame : Prop :=
  ∀ s t : State, exec .input s = .next t →
    t.ptr = s.ptr ∧ (∀ a, a ≠ s.ptr → t.cellAt a = s.cellAt a) ∧
    ((∀ b, s.inPoll ≠ .byte b) → ∀ a, t.cellAt a = s.cellAt a) ∧
    (s.inPoll ≠ .eof → t.phase = s.phase ∧ t.fault = s.fault) ∧
    t.jt = s.jt ∧ t.scanI = s.scanI ∧ t.stack = s.stack ∧ t.params = s.params ∧ t.output = s.output ∧ t.rst = s.rst

/-- R77: every instruction that completes advances `pc` to `target + 1`; an IN that does not take a byte leaves `pc`. -/
def Obligations.PcAdvance : Prop :=
  ∀ (i : Instr) (s t : State), exec i s = .next t →
    (i = .input ∧ (∀ b, s.inPoll ≠ .byte b) ∧ t.pc = s.pc) ∨
    (¬ (i = .input ∧ ∀ b, s.inPoll ≠ .byte b) ∧ ∃ target, advanceTarget i s = some target ∧ t.pc = target + 1)

/-! ### The SCAN phase -/

/-- R62: a `[` is pushed, nothing is written to `jt`; the push stays within `STACK_DEPTH` where the stack holds at most one
address per scanned address. -/
def Obligations.ScanPushesOpen : Prop :=
  ∀ s : State, s.rstAsserted = false → s.phase = .scan → s.params.prog[s.scanI]? = some openCode →
    step s = .next { s with stack := s.scanI :: s.stack, scanI := s.scanI + 1, rst := s.rst.tail } ∧
    (s.stack.length ≤ s.scanI → (s.scanI :: s.stack).length ≤ s.params.stackDepth)

/-- R63: a `]` on an empty stack raises `SYNTAX_CLOSE` at once; on another stack the top `o` is removed and the entries
`jt[o]` and `jt[a]` are written, no other; in a reachable state `o` is the address of an earlier `[`. -/
def Obligations.ScanPairsClose : Prop :=
  ∀ s : State, s.rstAsserted = false → s.phase = .scan → s.params.prog[s.scanI]? = some closeCode →
    (s.stack = [] →
      step s = .next { s with phase := .faulted, fault := .syntaxClose, rst := s.rst.tail }) ∧
    (∀ o rest, s.stack = o :: rest →
      ∃ t, step s = .next t ∧ t.jt.entry o = some s.scanI ∧ t.jt.entry s.scanI = some o ∧
        (∀ a, a ≠ o → a ≠ s.scanI → t.jt.entry a = s.jt.entry a) ∧
        t = { s with jt := t.jt, stack := rest, scanI := s.scanI + 1, rst := s.rst.tail } ∧
        (Inv s → o < s.scanI ∧ s.params.prog[o]? = some openCode))

/-- R64: at any other code unit the scan only moves on. -/
def Obligations.ScanPassesOther : Prop :=
  ∀ (s : State) (c : Nat), s.rstAsserted = false → s.phase = .scan → s.params.prog[s.scanI]? = some c →
    c ≠ openCode → c ≠ closeCode →
    step s = .next { s with scanI := s.scanI + 1, rst := s.rst.tail }

/-- R65: at the end of the program a leftover `[` raises `SYNTAX_OPEN`, and an empty stack begins the RUN phase;
in a reachable state `pc` and `ptr` are 0 and every cell is 0 there. -/
def Obligations.ScanEnds : Prop :=
  ∀ s : State, s.rstAsserted = false → s.phase = .scan → s.params.progLen ≤ s.scanI →
    (s.stack ≠ [] → step s = .next { s with phase := .faulted, fault := .syntaxOpen, rst := s.rst.tail }) ∧
    (s.stack = [] → step s = .next { s with phase := .run, rst := s.rst.tail }) ∧
    (Inv s → s.pc = 0 ∧ s.ptr = 0 ∧ ∀ a, s.cellAt a = 0)

/-- R67: the scan changes `jt`, its own state and, at its end, `phase` and `fault`, and nothing else. -/
def Obligations.ScanTouchesNothingElse : Prop :=
  ∀ s : State, s.rstAsserted = false → s.phase = .scan →
    ∃ t, step s = .next t ∧ t.pc = s.pc ∧ t.ptr = s.ptr ∧ (∀ a, t.cellAt a = s.cellAt a) ∧ t.params = s.params ∧
      t.input = s.input ∧ t.output = s.output ∧
      (s.params.prog[s.scanI]? = none ∨ s.params.prog[s.scanI]? = some closeCode ∧ s.stack = [] ∨
        t.phase = .scan ∧ t.fault = s.fault)

/-- R60 and R68: from launch, whatever the program, the stepwise scan is over after `PROG_LEN + 1` steps, before any
instruction has run, with the outcome and the table of the one total function `buildJump`. The number of steps is the model's
DESIGN CHOICE (log entry 12; R68 says it is not architected), and so is that the steps after an early fault answer the same
state (log entry 7). -/
def Obligations.ScanRefinesBuildJump : Prop :=
  ∀ (p : Params) (i : InStream),
    ∃ t, runSteps (p.progLen + 1) (State.launch p i) = .next t ∧
      t.pc = 0 ∧ t.ptr = 0 ∧ (∀ a, t.cellAt a = 0) ∧ t.params = p ∧ t.input = i ∧ t.output = [] ∧
      (∀ jt, buildJump p.prog = .ok jt → t.phase = .run ∧ t.fault = .none ∧ t.jt = jt) ∧
      (∀ e, buildJump p.prog = .error e → t.phase = .faulted ∧ t.fault = e)

/-- R66: the table of a scan that succeeds is the complete symmetric one: its keys are the bracket addresses, and each entry
joins a `[` to the least later `]` such that the text between them, inclusive, holds equally many of both. -/
def Obligations.JumpTableIsComplete : Prop :=
  ∀ (prog : List Nat) (jt : JumpTable), buildJump prog = .ok jt → CompleteTable prog jt

/-- R66 (b): pairs nest and never cross. -/
def Obligations.BracketPairsNest : Prop :=
  ∀ (prog : List Nat) (jt : JumpTable) (o₁ c₁ o₂ c₂ : Nat), buildJump prog = .ok jt →
    prog[o₁]? = some openCode → prog[o₂]? = some openCode →
    jt.entry o₁ = some c₁ → jt.entry o₂ = some c₂ → o₁ < o₂ → c₁ < o₂ ∨ c₂ < c₁

/-- R66 (d) and R69: which programs are accepted, and which of the two errors is reported, from the text alone. -/
def Obligations.ScanVerdict : Prop :=
  ∀ prog : List Nat,
    ((∃ jt, buildJump prog = .ok jt) ↔ BalancedProgram prog) ∧
    (buildJump prog = .error .syntaxClose ↔ StrayClose prog) ∧
    (buildJump prog = .error .syntaxOpen ↔ ¬ StrayClose prog ∧ ¬ BalancedIn prog 0 prog.length)

/-- R70 and R124 (b): a program with a bracket error runs no instruction: however many steps are taken, the machine is still
in SCAN or in FAULTED with the error of the scan, the next step executes no instruction, `pc` and `ptr` are 0, every cell is 0,
nothing has been put out and the input stream is untouched. That steps in FAULTED go on answering states is
the model's DESIGN CHOICE (log entry 7). -/
def Obligations.BadProgramRunsNothing : Prop :=
  ∀ (p : Params) (i : InStream) (e : FaultCode), buildJump p.prog = .error e → ∀ k,
    ∃ t, runSteps k (State.launch p i) = .next t ∧
      ((t.phase = .scan ∧ t.fault = .none) ∨ (t.phase = .faulted ∧ t.fault = e)) ∧ t.executing = none ∧
      t.pc = 0 ∧ t.ptr = 0 ∧ (∀ a, t.cellAt a = 0) ∧ t.output = [] ∧ t.input = i

/-! ### The invariant -/

/-- The invariant holds at `State.reset`, and at the launch of every program on every tape and input. -/
def Obligations.InvAtReset : Prop :=
  Inv State.reset ∧ ∀ (p : Params) (i : InStream), Inv (State.launch p i)

/-- R25: every step keeps the invariant, in every phase and with `rst` asserted or not. -/
def Obligations.StepKeepsInv : Prop :=
  ∀ s t : State, Inv s → step s = .next t → Inv t

/-- In every state that meets the invariant the step answers a next state: no access leaves the tape (R31), no branch finds
the table empty (R66), and there is no other stop. In HALTED and FAULTED (R79) and in a waiting IN (R96), where the spec says
"no step", the answered next state is the model's DESIGN CHOICE: log entries 7 and 8. -/
def Obligations.InvStatesAlwaysStep : Prop :=
  ∀ s : State, Inv s → ∃ t, step s = .next t

/-- R102: in a reachable RUN state every branch lands inside `[1, PROG_LEN]`; an OPEN lands after itself, a taken CLOSE not
after itself. -/
def Obligations.BranchesLandInside : Prop :=
  ∀ s t : State, Inv s → s.phase = .run →
    (s.params.prog[s.pc]? = some openCode → exec .openLoop s = .next t → s.pc < t.pc ∧ t.pc ≤ s.params.progLen) ∧
    (s.params.prog[s.pc]? = some closeCode → exec .closeLoop s = .next t →
      1 ≤ t.pc ∧ t.pc ≤ s.params.progLen ∧ (s.cellAt s.ptr ≠ 0 → t.pc ≤ s.pc))

/-- R4: `PTR_W` and `PC_W` are the least widths that hold the registers' ranges, and in every state that meets the invariant
the registers fit them. -/
def Obligations.RegistersFitTheirWidths : Prop :=
  (∀ p : Params,
    (1 ≤ p.ptrW ∧ p.tapeLen ≤ 2 ^ p.ptrW ∧ ∀ w, 1 ≤ w → p.tapeLen ≤ 2 ^ w → p.ptrW ≤ w) ∧
    (1 ≤ p.pcW ∧ p.progLen < 2 ^ p.pcW ∧ ∀ w, 1 ≤ w → p.progLen < 2 ^ w → p.pcW ≤ w)) ∧
  (∀ s : State, Inv s → s.ptr < 2 ^ s.params.ptrW ∧ s.pc < 2 ^ s.params.pcW)

/-! ### Rules of the whole machine -/

/-- R11, R41: while `rst` is released the parameters never change, and after SCAN neither does the jump table. -/
def Obligations.ProgramAndTableConstant : Prop :=
  ∀ s t : State, s.rstAsserted = false → step s = .next t →
    t.params = s.params ∧ (s.phase ≠ .scan → t.jt = s.jt)

/-- R14, R31: while `rst` is released a cell changes only in a step that executes INC, DEC or IN, and only the current one. -/
def Obligations.CellsWrittenOnlyByIncDecIn : Prop :=
  ∀ (s t : State) (a : Nat), s.rstAsserted = false → step s = .next t → t.cellAt a ≠ s.cellAt a →
    a = s.ptr ∧ (s.executing = some .inc ∨ s.executing = some .dec ∨ s.executing = some .input)

/-- R15, R87: while `rst` is released `ptr` changes only in a step that executes RIGHT or LEFT. -/
def Obligations.PtrMovedOnlyByRightLeft : Prop :=
  ∀ s t : State, s.rstAsserted = false → step s = .next t → t.ptr ≠ s.ptr →
    s.executing = some .right ∨ s.executing = some .left

/-- R111: the output stream grows in exactly the steps in which `out_valid` is 1, by the byte `out_data`. -/
def Obligations.OutputGrowsByOutData : Prop :=
  ∀ s t : State, step s = .next t → t.output = s.output ++ s.outData.toList

/-- R109: a byte leaves the input stream in exactly the steps in which `in_ready` is 1, and it is the first one. In a step with
`rst` asserted `in_ready` is the environment's account of the byte, a DESIGN CHOICE of the model: log entry 3. -/
def Obligations.BytesLeaveByInReady : Prop :=
  ∀ s t : State, step s = .next t →
    (s.inReady = true → ∃ b, s.inPoll = .byte b ∧ s.input.bytes = b :: t.input.bytes) ∧
    (s.inReady = false → t.input.bytes = s.input.bytes)

/-- R121, R123: with `rst` released, a step from a phase other than FAULTED enters FAULTED with a code exactly under that
code's condition; it then makes exactly the two writes, `done` and `status` become 1, and a syntax fault leaves `pc` at 0 in a
reachable state (R121, R124). That IN is the code unit 0x2C is PRESUMED: log entry 9. -/
def Obligations.FaultsRaisedExactlyWhen : Prop :=
  ∀ (s : State) (code : FaultCode), s.rstAsserted = false → s.phase ≠ .faulted →
    ((∃ t, step s = .next t ∧ t.phase = .faulted ∧ t.fault = code) ↔ RaisesWhen s code) ∧
    (RaisesWhen s code →
      ∃ t, step s = .next t ∧ t = { s with phase := .faulted, fault := code, rst := s.rst.tail } ∧
        t.done = true ∧ t.status = true) ∧
    (Inv s → code ≠ .ioEof → RaisesWhen s code → s.pc = 0)

/-- R20: `done` and `status` as functions of `phase`. -/
def Obligations.DoneAndStatus : Prop :=
  ∀ s : State,
    (s.done = true ↔ s.phase = .halted ∨ s.phase = .faulted) ∧ (s.status = true ↔ s.phase = .faulted)

/-- R18, R19, R121: the bit patterns of `phase` and `fault` (decisions D9 and D10 of the spec). -/
def Obligations.PhaseAndFaultBits : Prop :=
  Phase.scan.bits = 0b00 ∧ Phase.run.bits = 0b01 ∧ Phase.halted.bits = 0b10 ∧ Phase.faulted.bits = 0b11 ∧
  FaultCode.none.bits = 0b00 ∧ FaultCode.syntaxClose.bits = 0b01 ∧ FaultCode.syntaxOpen.bits = 0b10 ∧
  FaultCode.ioEof.bits = 0b11

/-- R113: the cell port shows a cell of the tape while `done = 1`, and is undefined otherwise; the three register outputs
always show their registers. -/
def Obligations.ObservationPort : Prop :=
  ∀ (s : State) (a : Nat) (v : Byte),
    (s.obsData a = some v ↔ s.done = true ∧ a < s.params.tapeLen ∧ v = s.cellAt a) ∧
    s.obsPc = s.pc ∧ s.obsPtr = s.ptr ∧ s.obsPhase = s.phase.bits

/-- R109: the three input pins as an offer; a byte wins whatever `in_eof` shows. -/
def Obligations.InputPinsAsOffer : Prop :=
  ∀ (eof : Bool) (d : Byte),
    offerOfPins true eof d = .byte d ∧ offerOfPins false true d = .eof ∧ offerOfPins false false d = .notYet

/-- R22: "The machine never reads the output stream back": with other bytes put out before, a step does the same. -/
def Obligations.OutputNeverReadBack : Prop :=
  ∀ (s : State) (before : List Byte),
    step { s with output := before ++ s.output } = withEarlierOutput before (step s)

/-- R109: the machine looks at the input stream only while it is executing an IN: in every other step another stream changes
nothing. -/
def Obligations.InputIgnoredOutsideIn : Prop :=
  ∀ (s : State) (i : InStream), s.executing ≠ some .input →
    step { s with input := i } = withInput i (step s)

/-- R96, R110: an IN on a stream that never brings anything waits for ever, in phase RUN with `done = 0`, nothing changed. -/
def Obligations.InWaitsForEver : Prop :=
  ∀ s : State, s.rst = [] → s.phase = .run → s.params.prog[s.pc]? = some 0x2C → s.input.pending = [] →
    s.input.ended = false → s.done = false ∧ ∀ k, runSteps k s = .next s

/-- R130, R143: bytes put out are never taken back, by a fault or by a reset. -/
def Obligations.OutputNeverTakenBack : Prop :=
  ∀ (k : Nat) (s t : State), runSteps k s = .next t → s.output <+: t.output

/-- R38 (d), R110: the bytes a run takes are the first ones of the stream, in order, and the rest is still to come. -/
def Obligations.BytesTakenInOrder : Prop :=
  ∀ (k : Nat) (s t : State), runSteps k s = .next t → ∃ taken, s.input.bytes = taken ++ t.input.bytes

/-- The model's two stops (log entry 5): a cell off the tape stops the six instructions that touch one, and a taken branch
with no entry at `pc` stops. -/
def Obligations.StopsOffTapeAndTable : Prop :=
  ∀ s : State,
    (s.params.tapeLen ≤ s.ptr →
      (∀ i, i = .inc ∨ i = .dec ∨ i = .output ∨ i = .openLoop ∨ i = .closeLoop →
        exec i s = .fault (.noSuchCell s.ptr)) ∧
      (∀ b, s.inPoll = .byte b → exec .input s = .fault (.noSuchCell s.ptr))) ∧
    (s.ptr < s.params.tapeLen → s.jt.entry s.pc = none →
      (s.cellAt s.ptr = 0 → exec .openLoop s = .fault (.noJumpEntry s.pc)) ∧
      (s.cellAt s.ptr ≠ 0 → exec .closeLoop s = .fault (.noJumpEntry s.pc)))
end

