-- ==== Sys2Proof/Laws/Sparse.lean ====
section
/-! SUPPORT. The laws of tables in rising order: read after write, and that writing and erasing keep the order. -/

namespace Sys2Proof.Machine

variable {α : Type}

@[simp] theorem Sparse.get_nil (a : Nat) : Sparse.get ([] : List (Nat × α)) a = none := rfl

theorem Sparse.get_cons (k : Nat) (v : α) (m : List (Nat × α)) (a : Nat) :
    Sparse.get ((k, v) :: m) a = if k = a then some v else Sparse.get m a := rfl

theorem Sparse.get_insert_same (m : List (Nat × α)) (a : Nat) (v : α) :
    Sparse.get (Sparse.insert m a v) a = some v := by
  induction m with
  | nil => simp [Sparse.insert, Sparse.get_cons]
  | cons e m ih =>
    obtain ⟨k, w⟩ := e
    unfold Sparse.insert
    split_ifs with h1 h2
    · simp [Sparse.get_cons]
    · simp [Sparse.get_cons]
    · rw [Sparse.get_cons, if_neg (Ne.symm h2), ih]

theorem Sparse.get_insert_other (m : List (Nat × α)) {a b : Nat} (v : α) (h : b ≠ a) :
    Sparse.get (Sparse.insert m a v) b = Sparse.get m b := by
  induction m with
  | nil => simp [Sparse.insert, Sparse.get_cons, h.symm]
  | cons e m ih =>
    obtain ⟨k, w⟩ := e
    unfold Sparse.insert
    split_ifs with h1 h2
    · rw [Sparse.get_cons, if_neg h.symm]
    · subst h2; rw [Sparse.get_cons, Sparse.get_cons, if_neg h.symm, if_neg h.symm]
    · rw [Sparse.get_cons, Sparse.get_cons, ih]

theorem Sparse.get_insert (m : List (Nat × α)) (a b : Nat) (v : α) :
    Sparse.get (Sparse.insert m a v) b = if b = a then some v else Sparse.get m b := by
  split_ifs with h
  · rw [h, Sparse.get_insert_same]
  · exact Sparse.get_insert_other m v h

theorem Sparse.get_erase (m : List (Nat × α)) (a b : Nat) :
    Sparse.get (Sparse.erase m a) b = if b = a then none else Sparse.get m b := by
  induction m with
  | nil => simp [Sparse.erase]
  | cons e m ih =>
    obtain ⟨k, w⟩ := e
    unfold Sparse.erase at ih ⊢
    by_cases hk : k = a <;> by_cases hb : b = a <;> simp_all [Sparse.get_cons]
    omega

/-- What an insertion lists: the new pair, and old pairs. -/
theorem Sparse.mem_insert {m : List (Nat × α)} {a : Nat} {v : α} {e : Nat × α}
    (h : e ∈ Sparse.insert m a v) : e = (a, v) ∨ e ∈ m := by
  induction m with
  | nil => simpa [Sparse.insert] using h
  | cons d m ih =>
    obtain ⟨k, w⟩ := d
    unfold Sparse.insert at h
    split_ifs at h with h1 h2
    · simpa using h
    · rcases List.mem_cons.mp h with h | h
      · exact .inl h
      · exact .inr (List.mem_cons_of_mem _ h)
    · rcases List.mem_cons.mp h with h | h
      · exact .inr (h ▸ List.mem_cons_self)
      · exact (ih h).imp_right (List.mem_cons_of_mem _)

theorem Sparse.rising_insert {m : List (Nat × α)} (h : Sparse.Rising m) (a : Nat) (v : α) :
    Sparse.Rising (Sparse.insert m a v) := by
  induction m with
  | nil => exact List.pairwise_singleton _ _
  | cons d m ih =>
    obtain ⟨k, w⟩ := d
    obtain ⟨hk, hm⟩ := List.pairwise_cons.mp h
    unfold Sparse.insert
    split_ifs with h1 h2
    · refine List.pairwise_cons.mpr ⟨fun e he => ?_, h⟩
      rcases List.mem_cons.mp he with rfl | he
      · exact h1
      · exact lt_trans h1 (hk e he)
    · subst h2; exact List.pairwise_cons.mpr ⟨hk, hm⟩
    · refine List.pairwise_cons.mpr ⟨fun e he => ?_, ih hm⟩
      rcases Sparse.mem_insert he with rfl | he
      · simp only; omega
      · exact hk e he

theorem Sparse.rising_erase {m : List (Nat × α)} (h : Sparse.Rising m) (a : Nat) :
    Sparse.Rising (Sparse.erase m a) :=
  List.Pairwise.filter _ h

/-- A listed pair of a rising table is what reading its index gives. -/
theorem Sparse.get_of_mem {m : List (Nat × α)} (h : Sparse.Rising m) {a : Nat} {v : α} (hv : (a, v) ∈ m) :
    Sparse.get m a = some v := by
  induction m with
  | nil => simp at hv
  | cons d m ih =>
    obtain ⟨k, w⟩ := d
    obtain ⟨hk, hm⟩ := List.pairwise_cons.mp h
    rcases List.mem_cons.mp hv with hv | hv
    · cases hv; simp [Sparse.get_cons]
    · have : k < a := hk _ hv
      rw [Sparse.get_cons, if_neg (by omega), ih hm hv]

theorem Sparse.mem_of_get {m : List (Nat × α)} {a : Nat} {v : α} (h : Sparse.get m a = some v) : (a, v) ∈ m := by
  induction m with
  | nil => simp at h
  | cons d m ih =>
    obtain ⟨k, w⟩ := d
    rw [Sparse.get_cons] at h
    split_ifs at h with hk
    · cases h; subst hk; exact List.mem_cons_self
    · exact List.mem_cons_of_mem _ (ih h)

/-- Equal reads, equal data: two rising tables that read alike are the same list. -/
theorem Sparse.ext {m n : List (Nat × α)} (hm : Sparse.Rising m) (hn : Sparse.Rising n)
    (h : ∀ a, Sparse.get m a = Sparse.get n a) : m = n := by
  have mem : ∀ e, e ∈ m ↔ e ∈ n := fun ⟨a, v⟩ =>
    ⟨fun he => Sparse.mem_of_get (h a ▸ Sparse.get_of_mem hm he),
     fun he => Sparse.mem_of_get ((h a).symm ▸ Sparse.get_of_mem hn he)⟩
  have nodup : ∀ {l : List (Nat × α)}, Sparse.Rising l → l.Nodup := fun hl =>
    hl.imp fun {x y} (hxy : x.1 < y.1) (he : x = y) => by subst he; omega
  exact ((List.perm_ext_iff_of_nodup (nodup hm) (nodup hn)).mpr mem).eq_of_pairwise
    (fun x y _ _ h1 h2 => by omega) hm hn

end Sys2Proof.Machine
end

