-- ==== Sys2Proof/Laws/Memory.lean ====
section
/-! SUPPORT. The laws of the tape and the jump table: read after write, the canonical form, equal reads give equal data. -/

namespace Sys2Proof.Machine

@[simp] theorem Memory.read_nil (a : Nat) : Memory.read [] a = 0 := rfl

theorem Memory.read_write (m : Memory) (a b : Nat) (v : Byte) :
    Memory.read (Memory.write m a v) b = if b = a then v else Memory.read m b := by
  unfold Memory.read Memory.write
  split_ifs with hv hb hb
  · simp [Sparse.get_erase, hb, hv]
  · simp [Sparse.get_erase, hb]
  · simp [Sparse.get_insert, hb]
  · simp [Sparse.get_insert, hb]

@[simp] theorem Memory.read_write_same (m : Memory) (a : Nat) (v : Byte) :
    Memory.read (Memory.write m a v) a = v := by
  rw [Memory.read_write, if_pos rfl]

theorem Memory.read_write_other (m : Memory) {a b : Nat} (v : Byte) (h : b ≠ a) :
    Memory.read (Memory.write m a v) b = Memory.read m b := by
  rw [Memory.read_write, if_neg h]

theorem Memory.wf_nil : Memory.wf [] := by decide

/-- The tape after reset has the canonical form. -/
theorem Memory.wf_reset : Memory.wf State.reset.tape := by decide

/-- A write keeps the canonical form. -/
theorem Memory.wf_write {m : Memory} (h : Memory.wf m) (a : Nat) (v : Byte) : Memory.wf (Memory.write m a v) := by
  unfold Memory.write
  split_ifs with hv
  · exact ⟨Sparse.rising_erase h.1 a, fun e he => h.2 e (List.mem_of_mem_filter he)⟩
  · refine ⟨Sparse.rising_insert h.1 a v, fun e he => ?_⟩
    rcases Sparse.mem_insert he with rfl | he
    · exact hv
    · exact h.2 e he

/-- What a write lists: the index written, and old indices. -/
theorem Memory.mem_write {m : Memory} {a : Nat} {v : Byte} {e : Host.Cell} (h : e ∈ Memory.write m a v) :
    e.1 = a ∨ e ∈ m := by
  unfold Memory.write at h
  split_ifs at h with hv
  · exact .inr (List.mem_of_mem_filter h)
  · exact (Sparse.mem_insert h).imp_left (congrArg Prod.fst)

theorem Memory.get_eq_of_read_eq {m n : Memory} (hm : Memory.wf m) (hn : Memory.wf n) {a : Nat}
    (h : Memory.read m a = Memory.read n a) : Sparse.get m a = Sparse.get n a := by
  have listed : ∀ {l : Memory} {v : Byte}, Memory.wf l → Sparse.get l a = some v → v ≠ Memory.unlisted :=
    fun hl hv => hl.2 _ (Sparse.mem_of_get hv)
  unfold Memory.read at h
  cases hma : Sparse.get m a <;> cases hna : Sparse.get n a <;> simp only [hma, hna, Option.getD] at h
  · rfl
  · exact absurd h.symm (listed hn hna)
  · exact absurd h (listed hm hma)
  · rw [h]

/-- Equal memories are equal data: two canonical tapes that read alike are the same list. -/
theorem Memory.ext {m n : Memory} (hm : Memory.wf m) (hn : Memory.wf n)
    (h : ∀ a, Memory.read m a = Memory.read n a) : m = n :=
  Sparse.ext hm.1 hn.1 fun a => Memory.get_eq_of_read_eq hm hn (h a)

@[simp] theorem JumpTable.entry_nil (a : Nat) : JumpTable.entry [] a = none := rfl

/-- The two entries of a matched pair, and every other entry as it was. -/
theorem JumpTable.entry_link (t : JumpTable) (o c a : Nat) :
    (t.link o c).entry a = if a = c then some o else if a = o then some c else t.entry a := by
  unfold JumpTable.entry JumpTable.link
  rw [Sparse.get_insert, Sparse.get_insert]

theorem JumpTable.rising_link {t : JumpTable} (h : Sparse.Rising t) (o c : Nat) : Sparse.Rising (t.link o c) :=
  Sparse.rising_insert (Sparse.rising_insert h o c) c o

end Sys2Proof.Machine
end

