-- ==== Sys2Proof/Laws/State.lean ====
section
/-! SUPPORT. Each update of the state, field by field: what it writes and what it leaves. All hold by rfl. -/

namespace Sys2Proof.Machine

variable (s : State)

@[simp] theorem State.setCell_phase (v : Byte) : (s.setCell v).phase = s.phase := rfl
@[simp] theorem State.setCell_fault (v : Byte) : (s.setCell v).fault = s.fault := rfl
@[simp] theorem State.setCell_pc (v : Byte) : (s.setCell v).pc = s.pc := rfl
@[simp] theorem State.setCell_ptr (v : Byte) : (s.setCell v).ptr = s.ptr := rfl
@[simp] theorem State.setCell_tape (v : Byte) : (s.setCell v).tape = s.tape.write s.ptr v := rfl
@[simp] theorem State.setCell_jt (v : Byte) : (s.setCell v).jt = s.jt := rfl
@[simp] theorem State.setCell_scanI (v : Byte) : (s.setCell v).scanI = s.scanI := rfl
@[simp] theorem State.setCell_stack (v : Byte) : (s.setCell v).stack = s.stack := rfl
@[simp] theorem State.setCell_params (v : Byte) : (s.setCell v).params = s.params := rfl
@[simp] theorem State.setCell_input (v : Byte) : (s.setCell v).input = s.input := rfl
@[simp] theorem State.setCell_output (v : Byte) : (s.setCell v).output = s.output := rfl
@[simp] theorem State.setCell_rst (v : Byte) : (s.setCell v).rst = s.rst := rfl

@[simp] theorem State.goPast_phase (target : Nat) : (s.goPast target).phase = s.phase := rfl
@[simp] theorem State.goPast_fault (target : Nat) : (s.goPast target).fault = s.fault := rfl
@[simp] theorem State.goPast_pc (target : Nat) : (s.goPast target).pc = target + 1 := rfl
@[simp] theorem State.goPast_ptr (target : Nat) : (s.goPast target).ptr = s.ptr := rfl
@[simp] theorem State.goPast_tape (target : Nat) : (s.goPast target).tape = s.tape := rfl
@[simp] theorem State.goPast_jt (target : Nat) : (s.goPast target).jt = s.jt := rfl
@[simp] theorem State.goPast_scanI (target : Nat) : (s.goPast target).scanI = s.scanI := rfl
@[simp] theorem State.goPast_stack (target : Nat) : (s.goPast target).stack = s.stack := rfl
@[simp] theorem State.goPast_params (target : Nat) : (s.goPast target).params = s.params := rfl
@[simp] theorem State.goPast_input (target : Nat) : (s.goPast target).input = s.input := rfl
@[simp] theorem State.goPast_output (target : Nat) : (s.goPast target).output = s.output := rfl
@[simp] theorem State.goPast_rst (target : Nat) : (s.goPast target).rst = s.rst := rfl

@[simp] theorem State.advance_phase : (s.advance).phase = s.phase := rfl
@[simp] theorem State.advance_fault : (s.advance).fault = s.fault := rfl
@[simp] theorem State.advance_pc : (s.advance).pc = s.pc + 1 := rfl
@[simp] theorem State.advance_ptr : (s.advance).ptr = s.ptr := rfl
@[simp] theorem State.advance_tape : (s.advance).tape = s.tape := rfl
@[simp] theorem State.advance_jt : (s.advance).jt = s.jt := rfl
@[simp] theorem State.advance_scanI : (s.advance).scanI = s.scanI := rfl
@[simp] theorem State.advance_stack : (s.advance).stack = s.stack := rfl
@[simp] theorem State.advance_params : (s.advance).params = s.params := rfl
@[simp] theorem State.advance_input : (s.advance).input = s.input := rfl
@[simp] theorem State.advance_output : (s.advance).output = s.output := rfl
@[simp] theorem State.advance_rst : (s.advance).rst = s.rst := rfl

@[simp] theorem State.setPtr_phase (p : Nat) : (s.setPtr p).phase = s.phase := rfl
@[simp] theorem State.setPtr_fault (p : Nat) : (s.setPtr p).fault = s.fault := rfl
@[simp] theorem State.setPtr_pc (p : Nat) : (s.setPtr p).pc = s.pc := rfl
@[simp] theorem State.setPtr_ptr (p : Nat) : (s.setPtr p).ptr = p := rfl
@[simp] theorem State.setPtr_tape (p : Nat) : (s.setPtr p).tape = s.tape := rfl
@[simp] theorem State.setPtr_jt (p : Nat) : (s.setPtr p).jt = s.jt := rfl
@[simp] theorem State.setPtr_scanI (p : Nat) : (s.setPtr p).scanI = s.scanI := rfl
@[simp] theorem State.setPtr_stack (p : Nat) : (s.setPtr p).stack = s.stack := rfl
@[simp] theorem State.setPtr_params (p : Nat) : (s.setPtr p).params = s.params := rfl
@[simp] theorem State.setPtr_input (p : Nat) : (s.setPtr p).input = s.input := rfl
@[simp] theorem State.setPtr_output (p : Nat) : (s.setPtr p).output = s.output := rfl
@[simp] theorem State.setPtr_rst (p : Nat) : (s.setPtr p).rst = s.rst := rfl

@[simp] theorem State.inTake_phase : (s.inTake).phase = s.phase := rfl
@[simp] theorem State.inTake_fault : (s.inTake).fault = s.fault := rfl
@[simp] theorem State.inTake_pc : (s.inTake).pc = s.pc := rfl
@[simp] theorem State.inTake_ptr : (s.inTake).ptr = s.ptr := rfl
@[simp] theorem State.inTake_tape : (s.inTake).tape = s.tape := rfl
@[simp] theorem State.inTake_jt : (s.inTake).jt = s.jt := rfl
@[simp] theorem State.inTake_scanI : (s.inTake).scanI = s.scanI := rfl
@[simp] theorem State.inTake_stack : (s.inTake).stack = s.stack := rfl
@[simp] theorem State.inTake_params : (s.inTake).params = s.params := rfl
@[simp] theorem State.inTake_input : (s.inTake).input = s.input.take := rfl
@[simp] theorem State.inTake_output : (s.inTake).output = s.output := rfl
@[simp] theorem State.inTake_rst : (s.inTake).rst = s.rst := rfl

@[simp] theorem State.inWait_phase : (s.inWait).phase = s.phase := rfl
@[simp] theorem State.inWait_fault : (s.inWait).fault = s.fault := rfl
@[simp] theorem State.inWait_pc : (s.inWait).pc = s.pc := rfl
@[simp] theorem State.inWait_ptr : (s.inWait).ptr = s.ptr := rfl
@[simp] theorem State.inWait_tape : (s.inWait).tape = s.tape := rfl
@[simp] theorem State.inWait_jt : (s.inWait).jt = s.jt := rfl
@[simp] theorem State.inWait_scanI : (s.inWait).scanI = s.scanI := rfl
@[simp] theorem State.inWait_stack : (s.inWait).stack = s.stack := rfl
@[simp] theorem State.inWait_params : (s.inWait).params = s.params := rfl
@[simp] theorem State.inWait_input : (s.inWait).input = s.input.wait := rfl
@[simp] theorem State.inWait_output : (s.inWait).output = s.output := rfl
@[simp] theorem State.inWait_rst : (s.inWait).rst = s.rst := rfl

@[simp] theorem State.outPut_phase (b : Byte) : (s.outPut b).phase = s.phase := rfl
@[simp] theorem State.outPut_fault (b : Byte) : (s.outPut b).fault = s.fault := rfl
@[simp] theorem State.outPut_pc (b : Byte) : (s.outPut b).pc = s.pc := rfl
@[simp] theorem State.outPut_ptr (b : Byte) : (s.outPut b).ptr = s.ptr := rfl
@[simp] theorem State.outPut_tape (b : Byte) : (s.outPut b).tape = s.tape := rfl
@[simp] theorem State.outPut_jt (b : Byte) : (s.outPut b).jt = s.jt := rfl
@[simp] theorem State.outPut_scanI (b : Byte) : (s.outPut b).scanI = s.scanI := rfl
@[simp] theorem State.outPut_stack (b : Byte) : (s.outPut b).stack = s.stack := rfl
@[simp] theorem State.outPut_params (b : Byte) : (s.outPut b).params = s.params := rfl
@[simp] theorem State.outPut_input (b : Byte) : (s.outPut b).input = s.input := rfl
@[simp] theorem State.outPut_output (b : Byte) : (s.outPut b).output = s.output ++ [b] := rfl
@[simp] theorem State.outPut_rst (b : Byte) : (s.outPut b).rst = s.rst := rfl

@[simp] theorem State.raise_phase (code : FaultCode) : (s.raise code).phase = .faulted := rfl
@[simp] theorem State.raise_fault (code : FaultCode) : (s.raise code).fault = code := rfl
@[simp] theorem State.raise_pc (code : FaultCode) : (s.raise code).pc = s.pc := rfl
@[simp] theorem State.raise_ptr (code : FaultCode) : (s.raise code).ptr = s.ptr := rfl
@[simp] theorem State.raise_tape (code : FaultCode) : (s.raise code).tape = s.tape := rfl
@[simp] theorem State.raise_jt (code : FaultCode) : (s.raise code).jt = s.jt := rfl
@[simp] theorem State.raise_scanI (code : FaultCode) : (s.raise code).scanI = s.scanI := rfl
@[simp] theorem State.raise_stack (code : FaultCode) : (s.raise code).stack = s.stack := rfl
@[simp] theorem State.raise_params (code : FaultCode) : (s.raise code).params = s.params := rfl
@[simp] theorem State.raise_input (code : FaultCode) : (s.raise code).input = s.input := rfl
@[simp] theorem State.raise_output (code : FaultCode) : (s.raise code).output = s.output := rfl
@[simp] theorem State.raise_rst (code : FaultCode) : (s.raise code).rst = s.rst := rfl

@[simp] theorem State.resetTo_phase (p : Params) : (s.resetTo p).phase = .scan := rfl
@[simp] theorem State.resetTo_fault (p : Params) : (s.resetTo p).fault = .none := rfl
@[simp] theorem State.resetTo_pc (p : Params) : (s.resetTo p).pc = 0 := rfl
@[simp] theorem State.resetTo_ptr (p : Params) : (s.resetTo p).ptr = 0 := rfl
@[simp] theorem State.resetTo_tape (p : Params) : (s.resetTo p).tape = [] := rfl
@[simp] theorem State.resetTo_jt (p : Params) : (s.resetTo p).jt = [] := rfl
@[simp] theorem State.resetTo_scanI (p : Params) : (s.resetTo p).scanI = 0 := rfl
@[simp] theorem State.resetTo_stack (p : Params) : (s.resetTo p).stack = [] := rfl
@[simp] theorem State.resetTo_params (p : Params) : (s.resetTo p).params = p := rfl
@[simp] theorem State.resetTo_input (p : Params) : (s.resetTo p).input = s.input := rfl
@[simp] theorem State.resetTo_output (p : Params) : (s.resetTo p).output = s.output := rfl
@[simp] theorem State.resetTo_rst (p : Params) : (s.resetTo p).rst = s.rst := rfl

@[simp] theorem State.tick_phase : (s.tick).phase = s.phase := rfl
@[simp] theorem State.tick_fault : (s.tick).fault = s.fault := rfl
@[simp] theorem State.tick_pc : (s.tick).pc = s.pc := rfl
@[simp] theorem State.tick_ptr : (s.tick).ptr = s.ptr := rfl
@[simp] theorem State.tick_tape : (s.tick).tape = s.tape := rfl
@[simp] theorem State.tick_jt : (s.tick).jt = s.jt := rfl
@[simp] theorem State.tick_scanI : (s.tick).scanI = s.scanI := rfl
@[simp] theorem State.tick_stack : (s.tick).stack = s.stack := rfl
@[simp] theorem State.tick_params : (s.tick).params = s.params := rfl
@[simp] theorem State.tick_input : (s.tick).input = s.input := rfl
@[simp] theorem State.tick_output : (s.tick).output = s.output := rfl
@[simp] theorem State.tick_rst : (s.tick).rst = s.rst.tail := rfl

@[simp] theorem State.launch_phase (p : Params) (i : InStream) : (State.launch p i).phase = .scan := rfl
@[simp] theorem State.launch_fault (p : Params) (i : InStream) : (State.launch p i).fault = .none := rfl
@[simp] theorem State.launch_pc (p : Params) (i : InStream) : (State.launch p i).pc = 0 := rfl
@[simp] theorem State.launch_ptr (p : Params) (i : InStream) : (State.launch p i).ptr = 0 := rfl
@[simp] theorem State.launch_tape (p : Params) (i : InStream) : (State.launch p i).tape = [] := rfl
@[simp] theorem State.launch_jt (p : Params) (i : InStream) : (State.launch p i).jt = [] := rfl
@[simp] theorem State.launch_scanI (p : Params) (i : InStream) : (State.launch p i).scanI = 0 := rfl
@[simp] theorem State.launch_stack (p : Params) (i : InStream) : (State.launch p i).stack = [] := rfl
@[simp] theorem State.launch_params (p : Params) (i : InStream) : (State.launch p i).params = p := rfl
@[simp] theorem State.launch_input (p : Params) (i : InStream) : (State.launch p i).input = i := rfl
@[simp] theorem State.launch_output (p : Params) (i : InStream) : (State.launch p i).output = [] := rfl
@[simp] theorem State.launch_rst (p : Params) (i : InStream) : (State.launch p i).rst = [] := rfl

/-! What reads of the state see of one level of `rst` going by: nothing. -/

@[simp] theorem State.tick_cellAt (a : Nat) : s.tick.cellAt a = s.cellAt a := rfl
@[simp] theorem State.tick_codeAt (a : Nat) : s.tick.codeAt a = s.codeAt a := rfl
@[simp] theorem State.tick_fetch : s.tick.fetch = s.fetch := rfl
@[simp] theorem State.tick_inPoll : s.tick.inPoll = s.inPoll := rfl

end Sys2Proof.Machine
end

