-- ==== Sys2Proof/Laws/Operands.lean ====
section
/-! SUPPORT. What the shared operand forms can do, said once. -/

namespace Sys2Proof.Machine

/-- With the pointer on the tape, an instruction goes on with the current cell. -/
theorem onCell_of_lt {s : State} (h : s.ptr < s.params.tapeLen) (k : Byte → Result) :
    onCell s k = k (s.cellAt s.ptr) := if_pos h

/-- All that `onCell` can answer as a next state. -/
theorem onCell_eq_next {s t : State} {k : Byte → Result} :
    onCell s k = .next t ↔ s.ptr < s.params.tapeLen ∧ k (s.cellAt s.ptr) = .next t := by
  unfold onCell
  split_ifs with h <;> simp [h]

/-- All that `branch` can answer as a next state: past the entry at `pc` if taken, past `pc` if not. -/
theorem branch_eq_next {s t : State} {taken : Bool} :
    branch taken s = .next t ↔
      (taken = false ∧ t = s.advance) ∨ (taken = true ∧ ∃ target, s.jt.entry s.pc = some target ∧ t = s.goPast target) := by
  unfold branch
  cases taken
  · simp [eq_comm]
  · cases h : s.jt.entry s.pc <;> simp [eq_comm]

theorem branch_not_taken (s : State) : branch false s = .next s.advance := rfl

theorem branch_taken {s : State} {target : Nat} (h : s.jt.entry s.pc = some target) :
    branch true s = .next (s.goPast target) := by
  simp [branch, h]

@[simp] theorem isZero_iff (v : Byte) : isZero v = true ↔ v = 0 := by simp [isZero]

theorem isZero_zero : isZero 0 = true := rfl

theorem isZero_of_ne {v : Byte} (h : v ≠ 0) : isZero v = false :=
  Bool.eq_false_iff.mpr fun hz => h ((isZero_iff v).mp hz)

/-- The values of a cell after one INC (R90). -/
theorem incByte_toNat (v : Byte) : (incByte v).toNat = (v.toNat + 1) % 256 := by
  revert v; decide

/-- The values of a cell after one DEC (R91). -/
theorem decByte_toNat (v : Byte) : (decByte v).toNat = (v.toNat + 255) % 256 := by
  revert v; decide

theorem rightOf_lt {n : Nat} (h : 1 ≤ n) (p : Nat) : rightOf n p < n := Nat.mod_lt _ h

theorem leftOf_lt {n p : Nat} (h : p < n) : leftOf n p < n := by
  unfold leftOf; split_ifs <;> omega

@[simp] theorem State.cellAt_setCell (s : State) (v : Byte) (a : Nat) :
    (s.setCell v).cellAt a = if a = s.ptr then v else s.cellAt a := Memory.read_write _ _ _ _

end Sys2Proof.Machine
end

