-- ==== Sys2Proof/Laws/Exec.lean ====
section
/-! SUPPORT. What one instruction can do when it answers a next state, said once for each shape of instruction. -/

namespace Sys2Proof.Machine

theorem next_eq_next {a t : State} : (Host.Outcome.next a : Result) = .next t ↔ t = a :=
  ⟨fun h => by cases h; rfl, fun h => by rw [h]⟩

/-- INC and DEC: the current cell becomes a function of its value, and the machine advances. -/
theorem execInc_eq_next {s t : State} :
    execInc s = .next t ↔ s.ptr < s.params.tapeLen ∧ t = (s.setCell (incByte (s.cellAt s.ptr))).advance :=
  onCell_eq_next.trans (and_congr_right fun _ => next_eq_next)

theorem execDec_eq_next {s t : State} :
    execDec s = .next t ↔ s.ptr < s.params.tapeLen ∧ t = (s.setCell (decByte (s.cellAt s.ptr))).advance :=
  onCell_eq_next.trans (and_congr_right fun _ => next_eq_next)

theorem execOutput_eq_next {s t : State} :
    execOutput s = .next t ↔ s.ptr < s.params.tapeLen ∧ t = (s.outPut (s.cellAt s.ptr)).advance :=
  onCell_eq_next.trans (and_congr_right fun _ => next_eq_next)

/-- IN: by the offer, a byte stored, the fault, or a wait (R96). -/
theorem execInput_eq_next {s t : State} :
    execInput s = .next t ↔
      (∃ b, s.inPoll = .byte b ∧ s.ptr < s.params.tapeLen ∧ t = (s.inTake.setCell b).advance) ∨
      (s.inPoll = .eof ∧ t = s.raise .ioEof) ∨ (s.inPoll = .notYet ∧ t = s.inWait) := by
  unfold execInput
  cases s.inPoll <;> simp only [onCell_eq_next, next_eq_next] <;> simp

/-- OPEN and CLOSE: past the table's entry or past `pc`, as the cell says (R100, R101). -/
theorem execOpenLoop_eq_next {s t : State} :
    execOpenLoop s = .next t ↔ s.ptr < s.params.tapeLen ∧ branch (isZero (s.cellAt s.ptr)) s = .next t := onCell_eq_next

theorem execCloseLoop_eq_next {s t : State} :
    execCloseLoop s = .next t ↔ s.ptr < s.params.tapeLen ∧ branch (!isZero (s.cellAt s.ptr)) s = .next t := onCell_eq_next

end Sys2Proof.Machine
end

