-- ==== Sys2Proof/Laws/PerInstr.lean ====
section
/-! SUPPORT. Statements about every instruction as syntax, one lemma per constructor. Family EncodingFits: the code unit of
a well-formed instruction fits in the width of a code unit. spec/30_encoding.md R45, R46. -/

namespace Sys2Proof.Laws.EncodingFits

/-- A well-formed instruction is one code unit of `CHAR_W` bits (R45). -/
def Statement (i : Instr) : Prop :=
  ∀ charW, 7 ≤ charW → i.wellFormed charW = true → encode i < 2 ^ charW

/-- Every operator's code is below 0x80 (R46), and a code unit has at least 7 bits (R4). -/
theorem lt_of_lt_128 {n charW : Nat} (hn : n < 128) (hw : 7 ≤ charW) : n < 2 ^ charW :=
  lt_of_lt_of_le hn (Nat.pow_le_pow_right (n := 2) (i := 7) (by decide) hw)

theorem right : Statement .right := fun _ hw _ => lt_of_lt_128 (by decide) hw
theorem left : Statement .left := fun _ hw _ => lt_of_lt_128 (by decide) hw
theorem inc : Statement .inc := fun _ hw _ => lt_of_lt_128 (by decide) hw
theorem dec : Statement .dec := fun _ hw _ => lt_of_lt_128 (by decide) hw
theorem output : Statement .output := fun _ hw _ => lt_of_lt_128 (by decide) hw
theorem input : Statement .input := fun _ hw _ => lt_of_lt_128 (by decide) hw
theorem openLoop : Statement .openLoop := fun _ hw _ => lt_of_lt_128 (by decide) hw
theorem closeLoop : Statement .closeLoop := fun _ hw _ => lt_of_lt_128 (by decide) hw
theorem nop (code : Nat) : Statement (.nop code) := fun _ _ h => by
  simp only [Instr.wellFormed, Bool.and_eq_true, decide_eq_true_eq] at h
  exact h.1

end Sys2Proof.Laws.EncodingFits
end

