-- ==== Sys2Proof/Laws/Scan.lean ====
section
/-! SUPPORT. The scan, code unit by code unit. spec/40_jump_table_scan.md R62 to R65. -/

namespace Sys2Proof.Machine

theorem scanUnit_open (a : Nat) (stack : List Nat) (jt : JumpTable) :
    scanUnit a openCode stack jt = some (a :: stack, jt) := rfl

theorem scanUnit_close_empty (a : Nat) (jt : JumpTable) : scanUnit a closeCode [] jt = none := rfl

theorem scanUnit_close (a o : Nat) (stack : List Nat) (jt : JumpTable) :
    scanUnit a closeCode (o :: stack) jt = some (stack, jt.link o a) := rfl

theorem scanUnit_other {a : Nat} {c : Nat} (ho : c ≠ openCode) (hc : c ≠ closeCode) (stack : List Nat)
    (jt : JumpTable) : scanUnit a c stack jt = some (stack, jt) := by
  simp [scanUnit, ho, hc]

/-- All that the scan can do at one address: push, pop and link, or nothing. -/
theorem scanUnit_cases {a : Nat} {c : Nat} {stack stack' : List Nat} {jt jt' : JumpTable}
    (h : scanUnit a c stack jt = some (stack', jt')) :
    (c = openCode ∧ stack' = a :: stack ∧ jt' = jt) ∨
    (c = closeCode ∧ ∃ o, stack = o :: stack' ∧ jt' = jt.link o a) ∨
    (c ≠ openCode ∧ c ≠ closeCode ∧ stack' = stack ∧ jt' = jt) := by
  by_cases ho : c = openCode
  · subst ho; cases h; exact .inl ⟨rfl, rfl, rfl⟩
  by_cases hc : c = closeCode
  · subst hc
    cases stack with
    | nil => cases h
    | cons o rest => cases h; exact .inr (.inl ⟨rfl, o, rfl, rfl⟩)
  · rw [scanUnit_other ho hc] at h; cases h; exact .inr (.inr ⟨ho, hc, rfl, rfl⟩)

/-- The scan stops at an address only for a `]` on an empty stack. -/
theorem scanUnit_none {a : Nat} {c : Nat} {stack : List Nat} {jt : JumpTable}
    (h : scanUnit a c stack jt = none) : c = closeCode ∧ stack = [] := by
  by_cases ho : c = openCode
  · subst ho; cases h
  by_cases hc : c = closeCode
  · subst hc
    cases stack with
    | nil => exact ⟨rfl, rfl⟩
    | cons o rest => cases h
  · rw [scanUnit_other ho hc] at h; cases h

/-- The scan keeps the order of the table. -/
theorem scanUnit_rising {a : Nat} {c : Nat} {stack stack' : List Nat} {jt jt' : JumpTable}
    (h : scanUnit a c stack jt = some (stack', jt')) (hj : Sparse.Rising jt) : Sparse.Rising jt' := by
  rcases scanUnit_cases h with ⟨_, _, rfl⟩ | ⟨_, o, _, rfl⟩ | ⟨_, _, _, rfl⟩
  · exact hj
  · exact JumpTable.rising_link hj o a
  · exact hj

theorem scanFrom_nil (a : Nat) (stack : List Nat) (jt : JumpTable) :
    scanFrom a stack jt [] = if stack.isEmpty then .ok jt else .error .syntaxOpen := rfl

theorem scanFrom_cons_some {a : Nat} {c : Nat} {stack stack' : List Nat} {jt jt' : JumpTable}
    (h : scanUnit a c stack jt = some (stack', jt')) (rest : List Nat) :
    scanFrom a stack jt (c :: rest) = scanFrom (a + 1) stack' jt' rest := by
  simp [scanFrom, h]

theorem scanFrom_cons_none {a : Nat} {c : Nat} {stack : List Nat} {jt : JumpTable}
    (h : scanUnit a c stack jt = none) (rest : List Nat) :
    scanFrom a stack jt (c :: rest) = .error .syntaxClose := by
  simp [scanFrom, h]

/-- A scan step at an address of the program. -/
theorem scanStep_unit {s : State} {c : Nat} {stack : List Nat} {jt : JumpTable} (hc : s.codeAt s.scanI = some c)
    (hu : scanUnit s.scanI c s.stack s.jt = some (stack, jt)) :
    scanStep s = { s with stack := stack, jt := jt, scanI := s.scanI + 1 } := by
  unfold scanStep; rw [hc]; simp only [hu]

theorem scanStep_stray {s : State} (hc : s.codeAt s.scanI = some closeCode) (hs : s.stack = []) :
    scanStep s = s.raise .syntaxClose := by
  unfold scanStep; rw [hc, hs]; rfl

/-- A scan step at the end of the program. -/
theorem scanStep_end {s : State} (hc : s.codeAt s.scanI = none) :
    scanStep s = if s.stack.isEmpty then { s with phase := .run } else s.raise .syntaxOpen := by
  unfold scanStep; rw [hc]

/-- All that a scan step can do: scan one address, stop at a stray `]`, end well, or end with a `[` left over. -/
theorem scanStep_cases (s : State) :
    (∃ c stack jt, s.codeAt s.scanI = some c ∧ scanUnit s.scanI c s.stack s.jt = some (stack, jt) ∧
      scanStep s = { s with stack := stack, jt := jt, scanI := s.scanI + 1 }) ∨
    (s.codeAt s.scanI = some closeCode ∧ s.stack = [] ∧ scanStep s = s.raise .syntaxClose) ∨
    (s.codeAt s.scanI = none ∧ s.stack = [] ∧ scanStep s = { s with phase := .run }) ∨
    (s.codeAt s.scanI = none ∧ s.stack ≠ [] ∧ scanStep s = s.raise .syntaxOpen) := by
  unfold scanStep
  cases hc : s.codeAt s.scanI with
  | some c =>
    cases hu : scanUnit s.scanI c s.stack s.jt with
    | some r => exact .inl ⟨c, r.1, r.2, rfl, by rw [hu], by simp [hu]⟩
    | none =>
      obtain ⟨rfl, he⟩ := scanUnit_none hu
      exact .inr (.inl ⟨rfl, he, by simp [hu]⟩)
  | none =>
    cases hs : s.stack with
    | nil => exact .inr (.inr (.inl ⟨rfl, rfl, by simp⟩))
    | cons o rest => exact .inr (.inr (.inr ⟨rfl, by simp, by simp⟩))

end Sys2Proof.Machine
end

