-- ==== Sys2Proof/Laws/Streams.lean ====
section
/-! SUPPORT. What polling, taking and waiting do to an input stream, said once. spec/46_host_interface.md R109, R110. -/

namespace Sys2Proof.Machine

theorem InStream.poll_byte {i : InStream} {b : Byte} :
    i.poll = .byte b ↔ ∃ rest, i.pending = .byte b :: rest := by
  unfold InStream.poll
  split <;> simp_all
  split_ifs <;> simp

theorem InStream.poll_eof {i : InStream} : i.poll = .eof ↔ i.pending = [] ∧ i.ended = true := by
  unfold InStream.poll
  split <;> simp_all

/-- A taken byte is the first of the bytes to come, and the others stay (R109: "one `IN` takes exactly one byte"). -/
theorem InStream.bytes_take {i : InStream} {b : Byte} (h : i.poll = .byte b) : i.bytes = b :: i.take.bytes := by
  obtain ⟨rest, hr⟩ := InStream.poll_byte.mp h
  simp [InStream.bytes, InStream.take, hr]

/-- Waiting loses no byte. -/
@[simp] theorem InStream.bytes_wait (i : InStream) : i.wait.bytes = i.bytes := by
  unfold InStream.wait
  split
  · next h => simp [InStream.bytes, h]
  · rfl

@[simp] theorem InStream.ended_take (i : InStream) : i.take.ended = i.ended := by
  unfold InStream.take; split <;> rfl

@[simp] theorem InStream.ended_wait (i : InStream) : i.wait.ended = i.ended := by
  unfold InStream.wait; split <;> rfl

end Sys2Proof.Machine
end

