-- ==== Sys2Proof/Laws/Step.lean ====
section
/-! SUPPORT. All that a step can do, said once: by the level of `rst`, then by phase. -/

namespace Sys2Proof.Machine

theorem rstAsserted_iff {s : State} :
    s.rstAsserted = true ↔ ∃ p gone rest, s.rst = .asserted p gone :: rest := by
  unfold State.rstAsserted
  split <;> simp_all

theorem step_of_asserted {s : State} {p : Params} {gone : Bool} {rest : List RstPin}
    (h : s.rst = .asserted p gone :: rest) : step s = .next (assertedStep s p) := by
  simp [step, clockedStep, h]

theorem step_of_released {s : State} (h : s.rstAsserted = false) : step s = releasedStep s.tick := by
  unfold State.rstAsserted at h
  unfold step clockedStep
  split
  · next hr => simp [hr] at h
  · rfl

theorem releasedStep_scan {s : State} (hp : s.phase = .scan) : releasedStep s = .next (scanStep s) := by
  unfold releasedStep; rw [hp]

theorem releasedStep_terminal {s : State} (hp : s.phase = .halted ∨ s.phase = .faulted) : releasedStep s = .next s := by
  unfold releasedStep; rcases hp with hp | hp <;> rw [hp]

theorem releasedStep_run {s : State} (hp : s.phase = .run) : releasedStep s = runStep s := by
  unfold releasedStep; rw [hp]

theorem runStep_fetched {s : State} {c : Nat} (hf : s.fetch = some c) : runStep s = exec (decode c) s := by
  unfold runStep; rw [hf]

theorem runStep_past_end {s : State} (hf : s.fetch = none) : runStep s = .next { s with phase := .halted } := by
  unfold runStep; rw [hf]

theorem fetch_eq_none {s : State} : s.fetch = none ↔ s.params.progLen ≤ s.pc := List.getElem?_eq_none_iff

/-- All that a step can answer as a next state. -/
theorem step_cases {s t : State} (h : step s = .next t) :
    (∃ p gone rest, s.rst = .asserted p gone :: rest ∧ t = assertedStep s p) ∨
    (s.rstAsserted = false ∧
      ((s.phase = .scan ∧ t = scanStep s.tick) ∨
       (s.phase = .run ∧ s.fetch = none ∧ t = { s.tick with phase := .halted }) ∨
       (s.phase = .run ∧ ∃ c, s.fetch = some c ∧ exec (decode c) s.tick = .next t) ∨
       ((s.phase = .halted ∨ s.phase = .faulted) ∧ t = s.tick))) := by
  cases hr : s.rstAsserted with
  | true =>
    obtain ⟨p, gone, rest, hp⟩ := rstAsserted_iff.mp hr
    rw [step_of_asserted hp] at h
    cases h
    exact .inl ⟨p, gone, rest, hp, rfl⟩
  | false =>
    rw [step_of_released hr] at h
    refine .inr ⟨rfl, ?_⟩
    unfold releasedStep at h
    cases hp : s.phase <;> simp only [State.tick_phase, hp] at h
    · cases h; exact .inl ⟨rfl, rfl⟩
    · unfold runStep at h
      have hf : s.tick.fetch = s.fetch := rfl
      cases hc : s.fetch with
      | none => simp only [hf, hc] at h; cases h; exact .inr (.inl ⟨rfl, rfl, rfl⟩)
      | some c => simp only [hf, hc] at h; exact .inr (.inr (.inl ⟨rfl, c, rfl, h⟩))
    · cases h; exact .inr (.inr (.inr ⟨.inl rfl, rfl⟩))
    · cases h; exact .inr (.inr (.inr ⟨.inr rfl, rfl⟩))

/-- `runSteps` is the host's run of this machine. -/
theorem runSteps_eq_core_run (k : Nat) (s : State) : runSteps k s = Host.Core.run core k s := by
  induction k generalizing s with
  | zero => rfl
  | succ k ih =>
    cases h : step s with
    | next t =>
      have h' : core.step s = .next t := h
      simp only [runSteps, Host.Core.run, h, h']
      exact ih t
    | fault r =>
      have h' : core.step s = .fault r := h
      simp only [runSteps, Host.Core.run, h, h']
      rfl
    | refused r =>
      have h' : core.step s = .refused r := h
      simp only [runSteps, Host.Core.run, h, h']
      rfl

end Sys2Proof.Machine
end

