-- ==== Sys2Proof/Tests/Slice0.lean ====
section
/-! SUPPORT. The model's own tests: words of the opcode table, ill-formed terms, single steps whose results stand in
spec/95_test_vectors.md, and for every statement with hypotheses a state that meets them. -/

namespace Sys2Proof.Tests

open Sys2Proof.Machine

/-! ### Small states -/

/-- The next state, if there is one. -/
def after (r : Result) : Option State :=
  match r with
  | .next t => some t
  | .fault _ | .refused _ => none

/-- A state of phase RUN at `pc`, on a tape, with a jump table, for the given parameters. -/
def running (p : Params) (pc ptr : Nat) (tape : Memory) (jt : JumpTable) : State :=
  { State.reset with
    phase := .run, params := p, pc := pc, ptr := ptr, tape := tape, jt := jt, scanI := p.progLen }

/-- Nothing but the parameters of `+[]`, on a tape of 4 cells. -/
def emptyLoop : Params := { tapeLen := 4, prog := [0x2B, 0x5B, 0x5D] }

/-- The jump table of `+[]` (V-L3). -/
def emptyLoopTable : JumpTable := [(1, 2), (2, 1)]

/-- The program `,` on a tape of 4 cells. -/
def justIn : Params := { tapeLen := 4, prog := [0x2C] }

/-- `,` at `pc`, the current cell 3 (V-F2), an input stream. -/
def atIn (i : InStream) : State := { running justIn 0 1 [(1, 3)] [] with input := i }

def aByte : InStream := { pending := [.byte 0, .byte 255], ended := true }
def theEnd : InStream := { pending := [], ended := true }
def nothingYet : InStream := { pending := [.wait, .byte 9], ended := true }
def nothingEver : InStream := { pending := [], ended := false }

/-- The program `a` on a tape of 4 cells. -/
def justNop : Params := { tapeLen := 4, prog := [0x61] }

/-- A state in the middle of the scan of `[x]]` at address `a`. -/
def scanning (a : Nat) (stack : List Nat) (jt : JumpTable) : State :=
  { State.reset with params := { tapeLen := 4, prog := [0x5B, 0x78, 0x5D, 0x5D] }, scanI := a, stack := stack, jt := jt }

/-! ### Encoding (spec/30_encoding.md R46, R47: the bits column, and the complement) -/

theorem test_decode_pointer_moves : decode 0b00111110 = .right ∧ decode 0b00111100 = .left := by decide
theorem test_decode_arithmetic : decode 0b00101011 = .inc ∧ decode 0b00101101 = .dec := by decide
theorem test_decode_io : decode 0b00101110 = .output ∧ decode 0b00101100 = .input := by decide
theorem test_decode_loops : decode 0b01011011 = .openLoop ∧ decode 0b01011101 = .closeLoop := by decide
theorem test_decode_nop : decode 0x00 = .nop 0x00 ∧ decode 0x20 = .nop 0x20 ∧ decode 0xFF = .nop 0xFF := by decide
theorem test_decode_wide_unit_is_nop : decode 0x12B = .nop 0x12B := by decide

/-- The text `+++[-]` is the hex listing of P1. -/
theorem test_encode_program :
    encodeProgram [.inc, .inc, .inc, .openLoop, .dec, .closeLoop] = [0x2B, 0x2B, 0x2B, 0x5B, 0x2D, 0x5D] := by decide

theorem test_table_word : decodeTableWord 8 0x3E = some .right ∧ decodeTableWord 8 0x13E = some .right := by decide

/-! ### Ill-formed terms -/

theorem test_wellFormed_refuses_operator_as_nop : (Instr.nop 0x2B).wellFormed 8 = false := by decide
theorem test_wellFormed_refuses_too_wide : (Instr.nop 0x100).wellFormed 8 = false := by decide
theorem test_wellFormed_accepts : (Instr.nop 0xFF).wellFormed 8 = true ∧ Instr.right.wellFormed 8 = true := by decide
theorem test_progFits_refuses : progFits 8 [0x2B, 0x100] = false ∧ progFits 7 [0x80] = false := by decide

/-! ### Single instructions (spec/95_test_vectors.md part B) -/

/-- V-P2. -/
theorem test_right_wraps :
    (after (exec .right (running { prog := [0x3E] } 0 4095 [] []))).map (·.ptr) = some 0 := by decide
/-- V-P7. -/
theorem test_right_wraps_at_tape_len :
    (after (exec .right (running { tapeLen := 3, prog := [0x3E] } 0 2 [] []))).map (·.ptr) = some 0 := by decide
/-- V-P3. -/
theorem test_left_wraps :
    (after (exec .left (running { prog := [0x3C] } 0 0 [] []))).map (·.ptr) = some 4095 := by decide
/-- V-P6. -/
theorem test_left_one_cell :
    (after (exec .left (running { tapeLen := 1, prog := [0x3C] } 0 0 [] []))).map (·.ptr) = some 0 := by decide
/-- V-C4; the cell is no longer listed. -/
theorem test_inc_wraps :
    (after (exec .inc (running emptyLoop 0 3 [(1, 7), (3, 255)] []))).map (fun t => (t.tape, t.pc)) =
      some ([(1, 7)], 1) := by decide
/-- V-C2. -/
theorem test_inc_carries :
    (after (exec .inc (running emptyLoop 0 0 [(0, 127)] []))).map (·.cellAt 0) = some 128 := by decide
/-- V-C5. -/
theorem test_dec_wraps :
    (after (exec .dec (running emptyLoop 0 2 [(1, 7)] []))).map (·.tape) = some [(1, 7), (2, 255)] := by decide
/-- V-C7. -/
theorem test_dec_borrows :
    (after (exec .dec (running emptyLoop 0 0 [(0, 128)] []))).map (·.cellAt 0) = some 127 := by decide
/-- V-I1: a zero cell puts out the byte 0. -/
theorem test_out_zero :
    (after (exec .output (running emptyLoop 0 0 [] []))).map (fun t => (t.output, t.pc)) = some ([0], 1) := by decide
/-- V-I3: bytes are appended in order. -/
theorem test_out_appends :
    (after (exec .output { running emptyLoop 0 0 [(0, 9)] [] with output := [5] })).map (·.output) = some [5, 9] := by
  decide
/-- V-I4: the byte 0 is data, and one IN takes one byte. -/
theorem test_in_takes_zero :
    (after (exec .input (atIn aByte))).map (fun t => (t.tape, t.pc, t.input.bytes)) = some ([], 1, [255]) := by decide
/-- V-F2: at the end of the stream the cell is not filled and `pc` stays. -/
theorem test_in_at_end :
    (after (exec .input (atIn theEnd))).map (fun t => (t.phase, t.fault, t.cellAt 1, t.pc)) =
      some (.faulted, .ioEof, 3, 0) := by decide
/-- V-L1. -/
theorem test_open_taken :
    (after (exec .openLoop (running { prog := [0x5B, 0x5D] } 0 0 [] [(0, 1), (1, 0)]))).map (·.pc) = some 2 := by decide
/-- V-L2. -/
theorem test_open_not_taken :
    (after (exec .openLoop (running emptyLoop 1 0 [(0, 1)] emptyLoopTable))).map (·.pc) = some 2 := by decide
/-- V-L3: a taken CLOSE of an empty loop lands on itself. -/
theorem test_close_taken :
    (after (exec .closeLoop (running emptyLoop 2 0 [(0, 1)] emptyLoopTable))).map (·.pc) = some 2 := by decide
/-- V-L4. -/
theorem test_close_not_taken :
    (after (exec .closeLoop (running emptyLoop 2 0 [] emptyLoopTable))).map (·.pc) = some 3 := by decide
/-- V-Q5. -/
theorem test_nop :
    (after (step (running { prog := [0xFF] } 0 0 [] []))).map (fun t => (t.phase, t.pc)) = some (.run, 1) := by decide

/-! ### Scan, sequencer, reset, ports -/

/-- V-S3. -/
theorem test_scan_nested :
    buildJump [0x5B, 0x61, 0x5B, 0x62, 0x5D, 0x63, 0x5D, 0x64, 0x5B, 0x5D] =
      .ok [(0, 6), (2, 4), (4, 2), (6, 0), (8, 9), (9, 8)] := by rfl
/-- V-S5, V-S6, V-S7. -/
theorem test_scan_errors :
    buildJump [0x5D, 0x5B] = .error .syntaxClose ∧ buildJump [0x5B, 0x5D, 0x5D] = .error .syntaxClose ∧
    buildJump [0x5B, 0x5B, 0x5D] = .error .syntaxOpen := ⟨rfl, rfl, rfl⟩
/-- V-Q3. -/
theorem test_halting_step :
    (after (step (running justNop 1 0 [(0, 2)] []))).map (fun t => (t.phase, t.pc, t.cellAt 0, t.done, t.status)) =
      some (.halted, 1, 2, true, false) := by decide
/-- V-R4: `rst` asserted while `,` waits. -/
theorem test_rst_while_waiting :
    (after (step { atIn nothingYet with rst := [.asserted emptyLoop false] })).map
      (fun t => (t.phase, t.pc, t.ptr, t.tape)) = some (.scan, 0, 0, []) := by decide
/-- V-I11. -/
theorem test_byte_wins : offerOfPins true true 5 = .byte 5 := by decide
/-- R109, R111: the strobes of an IN and of an OUT. -/
theorem test_strobes :
    (atIn aByte).inReady = true ∧ (atIn nothingYet).inReady = false ∧
    (running { prog := [0x2E] } 0 0 [(0, 9)] []).outData = some 9 := by decide
/-- Every row of the table, loaded after reset, is run by the next step. -/
theorem test_every_row_steps :
    ∀ w ∈ [0x3E, 0x3C, 0x2B, 0x2D, 0x2E, 0x2C, 0x5B, 0x5D, 0x00],
      (after (step (State.reset.withFetchWord 8 w))).isSome = true := by decide

/-! ### Witnesses: for every statement with hypotheses, a state that meets them together -/

/-- A reachable state of phase RUN: `+[]` after its `+`, at the OPEN. -/
theorem witness_inv_run : Inv (running emptyLoop 1 0 [(0, 1)] emptyLoopTable) where
  ptr_lt := by decide
  pc_le := by decide
  tape_wf := by decide
  tape_lt := by decide
  jt_rising := by decide
  fault_iff := by decide
  scan_untouched := by decide
  scan_bound := by decide
  scan_stack := by decide
  scan_ahead := fun h => by cases h
  table := fun _ => rfl
  halted_pc := by decide
  bad_brackets := fun h => by rcases h with h | h <;> cases h
  end_of_input := fun h => by cases h

/-- A reachable state of phase RUN: `+[]` at its CLOSE, the cell nonzero. -/
theorem witness_inv_close : Inv (running emptyLoop 2 0 [(0, 1)] emptyLoopTable) :=
  { witness_inv_run with
    pc_le := by decide, scan_untouched := by decide, halted_pc := by decide
    bad_brackets := fun h => by rcases h with h | h <;> cases h
    end_of_input := fun h => by cases h }

/-- A reachable state of phase RUN: `[]` at its OPEN, the cell zero. -/
theorem witness_inv_open_taken : Inv (running { prog := [0x5B, 0x5D] } 0 0 [] [(0, 1), (1, 0)]) where
  ptr_lt := by decide
  pc_le := by decide
  tape_wf := by decide
  tape_lt := by decide
  jt_rising := by decide
  fault_iff := by decide
  scan_untouched := by decide
  scan_bound := by decide
  scan_stack := by decide
  scan_ahead := fun h => by cases h
  table := fun _ => rfl
  halted_pc := by decide
  bad_brackets := fun h => by rcases h with h | h <;> cases h
  end_of_input := fun h => by cases h

/-- A state of phase SCAN that meets the invariant: `[x]]` with its `[` pushed. -/
theorem witness_inv_scan : Inv (scanning 1 [0] []) where
  ptr_lt := by decide
  pc_le := by decide
  tape_wf := by decide
  tape_lt := by decide
  jt_rising := by decide
  fault_iff := by decide
  scan_untouched := by decide
  scan_bound := by decide
  scan_stack := by decide
  scan_ahead := fun _ => rfl
  table := fun h => by rcases h with h | h <;> cases h
  halted_pc := by decide
  bad_brackets := fun h => by rcases h with h | h <;> cases h
  end_of_input := fun h => by cases h

theorem witness_matches : Matches emptyLoop.prog 1 2 where
  opens := rfl
  closes := rfl
  lt := by decide
  balanced := by unfold BalancedIn; decide
  least := fun d h1 h2 => absurd h2 (by omega)

/-- RstGivesResetState: both values of the environment's account, with a byte in flight. -/
theorem witness_RstGivesResetState :
    ({ atIn aByte with rst := [.asserted emptyLoop true] } : State).rst = .asserted emptyLoop true :: [] ∧
    ({ atIn aByte with rst := [.asserted emptyLoop false] } : State).rst = .asserted emptyLoop false :: [] ∧
    ({ atIn aByte with rst := [.asserted emptyLoop true] } : State).byteOffered = true := by decide

/-- ProgramTextRoundTrip, at the least width. -/
theorem witness_ProgramTextRoundTrip :
    7 ≤ 7 ∧ (∀ i ∈ [Instr.inc, .nop 0x61, .closeLoop], i.wellFormed 7 = true) ∧
    progFits 7 [0x2B, 0x61, 0x5D, 0x7F] = true := by decide

/-- StepRunsFetchedInstruction, at the last address of the program. -/
theorem witness_StepRunsFetchedInstruction :
    (running emptyLoop 2 0 [(0, 1)] emptyLoopTable).rstAsserted = false ∧
    (running emptyLoop 2 0 [(0, 1)] emptyLoopTable).phase = .run ∧
    (running emptyLoop 2 0 [(0, 1)] emptyLoopTable).params.prog[2]? = some 0x5D := by decide

/-- LoadedWordRuns: the largest code unit of 8 bits, at the table's 8 bits and the least width they fit in, and a state that
meets the invariant. -/
theorem witness_LoadedWordRuns :
    0xFF < 2 ^ 8 ∧ 0xFF < 2 ^ (running emptyLoop 1 0 [(0, 1)] emptyLoopTable).params.charW ∧
    8 ≤ (running emptyLoop 1 0 [(0, 1)] emptyLoopTable).params.charW ∧
    Inv (running emptyLoop 1 0 [(0, 1)] emptyLoopTable) := ⟨by decide, by decide, by decide, witness_inv_run⟩

/-- BadProgramRunsNothing: V-S10, `,]` on an ended stream. -/
theorem witness_BadProgramRunsNothing :
    buildJump [0x2C, 0x5D] = .error .syntaxClose ∧
    (after (runSteps 2 (State.launch { prog := [0x2C, 0x5D] } theEnd))).map (fun t => (t.phase, t.fault, t.pc)) =
      some (.faulted, .syntaxClose, 0) := ⟨rfl, by decide⟩

/-- HaltingStep, at `pc = PROG_LEN` exactly. -/
theorem witness_HaltingStep :
    (running justNop 1 0 [] []).rstAsserted = false ∧ (running justNop 1 0 [] []).phase = .run ∧
    (running justNop 1 0 [] []).params.progLen ≤ (running justNop 1 0 [] []).pc := by decide

/-- TerminalPhasesHold: both phases. -/
theorem witness_TerminalPhasesHold :
    ({ running justNop 1 0 [] [] with phase := .halted } : State).rstAsserted = false ∧
    ({ running justNop 1 0 [] [] with phase := .halted } : State).phase = .halted ∧
    ({ atIn theEnd with phase := .faulted, fault := .ioEof } : State).rstAsserted = false ∧
    ({ atIn theEnd with phase := .faulted, fault := .ioEof } : State).phase = .faulted := by decide

/-- RightCompletes at the last index; LeftCompletes at the first and the last. -/
theorem witness_pointer_moves :
    (running emptyLoop 0 3 [] []).ptr = (running emptyLoop 0 3 [] []).params.tapeLen - 1 ∧
    (running emptyLoop 0 3 [] []).ptr < (running emptyLoop 0 3 [] []).params.tapeLen ∧
    (running emptyLoop 0 0 [] []).ptr < (running emptyLoop 0 0 [] []).params.tapeLen := by decide

/-- IncCompletes, DecCompletes, OutCompletes, IncAndDecUndoEachOther, IncRoundTheByte, RightRoundTheTape and
LeftAndRightUndoEachOther: the last cell of the tape, at 255, on a canonical tape. -/
theorem witness_on_the_tape :
    (running emptyLoop 0 3 [(3, 255)] []).ptr < (running emptyLoop 0 3 [(3, 255)] []).params.tapeLen ∧
    Memory.wf (running emptyLoop 0 3 [(3, 255)] []).tape ∧
    (running emptyLoop 0 3 [(3, 255)] []).cellAt 3 = 255 := by decide

/-- InCompletes: its three cases. -/
theorem witness_InCompletes :
    (atIn aByte).inPoll = .byte 0 ∧ (atIn aByte).ptr < (atIn aByte).params.tapeLen ∧
    (atIn theEnd).inPoll = .eof ∧ (atIn nothingYet).inPoll = .notYet ∧ (atIn nothingEver).inPoll = .notYet := by decide

/-- OpenCompletes and CloseCompletes: a zero cell and a nonzero one, an entry at `pc`. -/
theorem witness_branches :
    (running emptyLoop 1 3 [] emptyLoopTable).ptr < (running emptyLoop 1 3 [] emptyLoopTable).params.tapeLen ∧
    (running emptyLoop 1 3 [] emptyLoopTable).cellAt 3 = 0 ∧
    (running emptyLoop 1 3 [] emptyLoopTable).jt.entry 1 = some 2 ∧
    (running emptyLoop 2 3 [(3, 255)] emptyLoopTable).cellAt 3 ≠ 0 ∧
    (running emptyLoop 2 3 [(3, 255)] emptyLoopTable).jt.entry 2 = some 1 ∧
    (running emptyLoop 1 3 [(3, 1)] emptyLoopTable).cellAt 3 ≠ 0 ∧
    (running emptyLoop 2 3 [] emptyLoopTable).cellAt 3 = 0 := by decide

/-- BranchesGoToMatchingBracket, its CLOSE clause. -/
theorem witness_BranchesGoToMatchingBracket_close :
    Inv (running emptyLoop 2 0 [(0, 1)] emptyLoopTable) ∧
    Matches (running emptyLoop 2 0 [(0, 1)] emptyLoopTable).params.prog 1 2 ∧
    (running emptyLoop 2 0 [(0, 1)] emptyLoopTable).cellAt 0 ≠ 0 := ⟨witness_inv_close, witness_matches, by decide⟩

/-- BranchesGoToMatchingBracket, its OPEN clause. -/
theorem witness_BranchesGoToMatchingBracket_open :
    Inv (running { prog := [0x5B, 0x5D] } 0 0 [] [(0, 1), (1, 0)]) ∧ Matches [0x5B, 0x5D] 0 1 ∧
    (running { prog := [0x5B, 0x5D] } 0 0 [] [(0, 1), (1, 0)]).cellAt 0 = 0 :=
  ⟨witness_inv_open_taken,
   ⟨rfl, rfl, by decide, by unfold BalancedIn; decide, fun d h1 h2 => absurd h2 (by omega)⟩, by decide⟩

/-- PointerMoveFrame, BranchAndNopFrame, CellArithmeticFrame, OutFrame, InFrame, PcAdvance: each instruction named answers a
next state somewhere, IN in each of its three cases. -/
theorem witness_frames :
    (∀ i ∈ [Instr.right, .left, .openLoop, .closeLoop, .nop 0x61, .inc, .dec, .output],
      (after (exec i (running emptyLoop 1 0 [] [(1, 2), (2, 1)]))).isSome = true) ∧
    (∀ i ∈ [aByte, theEnd, nothingYet], (after (exec .input (atIn i))).isSome = true) := by decide

/-- ScanPushesOpen, ScanPassesOther, ScanPairsClose (both stacks), with ScanTouchesNothingElse. -/
theorem witness_scan_units :
    (scanning 0 [] []).rstAsserted = false ∧ (scanning 0 [] []).phase = .scan ∧
    (scanning 0 [] []).params.prog[0]? = some openCode ∧
    (scanning 1 [0] []).params.prog[1]? = some 0x78 ∧ 0x78 ≠ openCode ∧ 0x78 ≠ closeCode ∧
    (scanning 2 [0] []).params.prog[2]? = some closeCode ∧
    (scanning 3 [] [(0, 2), (2, 0)]).params.prog[3]? = some closeCode := by decide

/-- ScanEnds: at `scan_i = PROG_LEN` exactly, with an empty stack and with another. -/
theorem witness_ScanEnds :
    ({ State.reset with params := emptyLoop, scanI := 3 } : State).params.progLen ≤ 3 ∧
    ({ State.reset with params := emptyLoop, scanI := 3 } : State).stack = [] ∧
    ({ State.reset with params := { prog := [0x5B] }, scanI := 1, stack := [0] } : State).params.progLen ≤ 1 ∧
    ({ State.reset with params := { prog := [0x5B] }, scanI := 1, stack := [0] } : State).stack ≠ [] := by decide

/-- ScanRefinesBuildJump, JumpTableIsComplete, BadProgramRunsNothing: a program of each outcome. -/
theorem witness_buildJump :
    buildJump emptyLoop.prog = .ok emptyLoopTable ∧ buildJump [0x2B, 0x5D] = .error .syntaxClose ∧
    buildJump [0x2B, 0x5B] = .error .syntaxOpen := ⟨rfl, rfl, rfl⟩

/-- BracketPairsNest: a nested and a disjoint pair, from `[[]][]`. -/
theorem witness_BracketPairsNest :
    buildJump [0x5B, 0x5B, 0x5D, 0x5D, 0x5B, 0x5D] = .ok [(0, 3), (1, 2), (2, 1), (3, 0), (4, 5), (5, 4)] ∧
    JumpTable.entry [(0, 3), (1, 2), (2, 1), (3, 0), (4, 5), (5, 4)] 0 = some 3 ∧
    JumpTable.entry [(0, 3), (1, 2), (2, 1), (3, 0), (4, 5), (5, 4)] 1 = some 2 ∧
    JumpTable.entry [(0, 3), (1, 2), (2, 1), (3, 0), (4, 5), (5, 4)] 4 = some 5 := ⟨rfl, rfl, rfl, rfl⟩

/-- StepKeepsInv, InvStatesAlwaysStep, RegistersFitTheirWidths: the invariant and a next state, in SCAN and in RUN. -/
theorem witness_StepKeepsInv :
    (Inv (scanning 1 [0] []) ∧ ∃ t, step (scanning 1 [0] []) = .next t) ∧
    (Inv (running emptyLoop 1 0 [(0, 1)] emptyLoopTable) ∧
      ∃ t, step (running emptyLoop 1 0 [(0, 1)] emptyLoopTable) = .next t) :=
  ⟨⟨witness_inv_scan, _, rfl⟩, witness_inv_run, _, rfl⟩

/-- BranchesLandInside: an OPEN and a taken CLOSE in reachable states. -/
theorem witness_BranchesLandInside :
    emptyLoop.prog[1]? = some openCode ∧ emptyLoop.prog[2]? = some closeCode ∧
    (∃ t, exec .openLoop (running emptyLoop 1 0 [(0, 1)] emptyLoopTable) = .next t) ∧
    (∃ t, exec .closeLoop (running emptyLoop 2 0 [(0, 1)] emptyLoopTable) = .next t) := ⟨rfl, rfl, ⟨_, rfl⟩, _, rfl⟩

/-- ProgramAndTableConstant, OutputGrowsByOutData, OutputNeverTakenBack, BytesTakenInOrder: a released step of phase RUN that
answers a next state. -/
theorem witness_released_step :
    (atIn aByte).rstAsserted = false ∧ (atIn aByte).phase ≠ .scan ∧ (∃ t, step (atIn aByte) = .next t) ∧
    ∃ t, runSteps 2 (atIn aByte) = .next t := ⟨rfl, by decide, ⟨_, rfl⟩, _, rfl⟩

/-- BytesLeaveByInReady: `in_ready` 1 and 0. -/
theorem witness_BytesLeaveByInReady :
    (atIn aByte).inReady = true ∧ (atIn nothingYet).inReady = false ∧ ∃ t, step (atIn nothingYet) = .next t :=
  ⟨rfl, rfl, _, rfl⟩

/-- CellsWrittenOnlyByIncDecIn: a released step that changes a cell. -/
theorem witness_CellsWrittenOnlyByIncDecIn :
    ∃ t, step (atIn aByte) = .next t ∧ t.cellAt 1 ≠ (atIn aByte).cellAt 1 := ⟨_, rfl, by decide⟩

/-- PtrMovedOnlyByRightLeft: a released step that moves the pointer. -/
theorem witness_PtrMovedOnlyByRightLeft :
    ∃ t, step (running { prog := [0x3C] } 0 0 [] []) = .next t ∧ t.ptr ≠ 0 := ⟨_, rfl, by decide⟩

/-- FaultsRaisedExactlyWhen: each condition, the syntax ones in states that meet the invariant's part that is used. -/
theorem witness_FaultsRaisedExactlyWhen :
    RaisesWhen (scanning 3 [] [(0, 2), (2, 0)]) .syntaxClose ∧
    RaisesWhen { State.reset with params := { prog := [0x5B] }, scanI := 1, stack := [0] } .syntaxOpen ∧
    RaisesWhen (atIn theEnd) .ioEof := ⟨⟨rfl, rfl, rfl⟩, ⟨rfl, by decide, by decide⟩, rfl, rfl, rfl⟩

/-- FaultsRaisedExactlyWhen, its clause on reachable states: `[x]]` at its stray `]`. -/
theorem witness_FaultsRaisedExactlyWhen_inv : Inv (scanning 3 [] [(0, 2), (2, 0)]) :=
  { witness_inv_scan with
    jt_rising := by decide, scan_bound := by decide, scan_stack := by decide, scan_ahead := fun _ => rfl
    table := fun h => by rcases h with h | h <;> cases h
    bad_brackets := fun h => by rcases h with h | h <;> cases h
    end_of_input := fun h => by cases h }

/-- InputIgnoredOutsideIn: a step that executes another instruction, one of SCAN, and one past the end. -/
theorem witness_InputIgnoredOutsideIn :
    (running emptyLoop 0 0 [] []).executing ≠ some .input ∧ (scanning 0 [] []).executing ≠ some .input ∧
    (running justIn 1 0 [] []).executing ≠ some .input := by decide

/-- ScanPairsClose and ScanEnds, their clauses on reachable states: `[x]]` at its first `]`, and `x` at its end. -/
theorem witness_scan_clauses_inv :
    Inv (scanning 2 [0] []) ∧ Inv ({ State.reset with params := justNop, scanI := 1 } : State) :=
  ⟨{ witness_inv_scan with
      scan_bound := by decide, scan_stack := by decide, scan_ahead := fun _ => rfl
      table := fun h => by rcases h with h | h <;> cases h
      bad_brackets := fun h => by rcases h with h | h <;> cases h
      end_of_input := fun h => by cases h },
   { witness_inv_scan with
      ptr_lt := by decide, pc_le := by decide, scan_bound := by decide, scan_stack := by decide
      tape_lt := by decide, scan_ahead := fun _ => rfl, halted_pc := by decide
      table := fun h => by rcases h with h | h <;> cases h
      bad_brackets := fun h => by rcases h with h | h <;> cases h
      end_of_input := fun h => by cases h }⟩

theorem witness_InWaitsForEver :
    (atIn nothingEver).rst = [] ∧ (atIn nothingEver).phase = .run ∧
    (atIn nothingEver).params.prog[(atIn nothingEver).pc]? = some 0x2C ∧ (atIn nothingEver).input.pending = [] ∧
    (atIn nothingEver).input.ended = false := by decide

/-- StopsOffTapeAndTable: the first index off the tape, with a byte offered, and a `[` without an entry. -/
theorem witness_StopsOffTapeAndTable :
    (running emptyLoop 1 4 [] []).params.tapeLen ≤ (running emptyLoop 1 4 [] []).ptr ∧
    ({ running emptyLoop 1 4 [] [] with input := aByte } : State).inPoll = .byte 0 ∧
    (running emptyLoop 1 3 [] []).ptr < (running emptyLoop 1 3 [] []).params.tapeLen ∧
    (running emptyLoop 1 3 [] []).jt.entry 1 = none ∧ (running emptyLoop 1 3 [] []).cellAt 3 = 0 ∧
    (running emptyLoop 2 3 [(3, 1)] []).jt.entry 2 = none ∧ (running emptyLoop 2 3 [(3, 1)] []).cellAt 3 ≠ 0 := by decide

end Sys2Proof.Tests
end

section
/-! The two status outputs, each tied to the phase it reports (R20). -/

namespace Sys2Proof.Machine

/-- R20, first half: `done` is high in the two terminal phases and in no other. -/
theorem State.done_eq_true_iff (s : State) : s.done = true ↔ s.phase = .halted ∨ s.phase = .faulted := by
  unfold State.done
  cases s.phase with
  | scan | run => simp
  | halted | faulted => simp

/-- R20, second half: `status` tells the fault from the other three phases, the successful end among them. -/
theorem State.status_eq_true_iff (s : State) : s.status = true ↔ s.phase = .faulted := by
  unfold State.status
  cases s.phase with
  | scan | run | halted => simp
  | faulted => simp

/-- Settles O51: each output by the cases of the phase. -/
theorem doneAndStatus : Obligations.DoneAndStatus :=
  fun s => ⟨s.done_eq_true_iff, s.status_eq_true_iff⟩

end Sys2Proof.Machine
end

section
/-! One step of phase SCAN with `rst` released, by what the scan finds at `scan_i` (R61 to R65). -/

namespace Sys2Proof.Machine

theorem step_of_scan {s : State} (hr : s.rstAsserted = false) (hp : s.phase = .scan) :
    step s = .next (scanStep s.tick) := by
  rw [step_of_released hr, releasedStep_scan (s.tick_phase.trans hp)]

/-- At an address where the scan does not stop, the step takes over the new stack and table and moves on (R61). -/
theorem step_of_scan_unit {s : State} {c : Nat} {stack : List Nat} {jt : JumpTable} (hr : s.rstAsserted = false)
    (hp : s.phase = .scan) (hc : s.codeAt s.scanI = some c) (hu : scanUnit s.scanI c s.stack s.jt = some (stack, jt)) :
    step s = .next { s with stack := stack, jt := jt, scanI := s.scanI + 1, rst := s.rst.tail } := by
  have hunit : scanStep s.tick = { s.tick with stack := stack, jt := jt, scanI := s.scanI + 1 } :=
    scanStep_unit (s := s.tick) hc hu
  rw [step_of_scan hr hp, hunit]
  rfl

theorem State.codeAt_eq_none_iff {s : State} {a : Nat} : s.codeAt a = none ↔ s.params.progLen ≤ a :=
  List.getElem?_eq_none_iff

theorem State.lt_progLen_of_codeAt {s : State} {a c : Nat} (h : s.codeAt a = some c) : a < s.params.progLen :=
  (List.getElem?_eq_some_iff.mp h).1

/-! ### The entries of a matched pair (R63), also where the two addresses were the same -/

theorem JumpTable.entry_link_open (t : JumpTable) (o c : Nat) : (t.link o c).entry o = some c := by
  rw [JumpTable.entry_link]
  split
  · next h => rw [h]
  · rw [if_pos rfl]

theorem JumpTable.entry_link_close (t : JumpTable) (o c : Nat) : (t.link o c).entry c = some o := by
  rw [JumpTable.entry_link, if_pos rfl]

theorem JumpTable.entry_link_other (t : JumpTable) {o c a : Nat} (ho : a ≠ o) (hc : a ≠ c) :
    (t.link o c).entry a = t.entry a := by
  rw [JumpTable.entry_link, if_neg hc, if_neg ho]

theorem Inv.scan_cellAt {s : State} (h : Inv s) (hp : s.phase = .scan) (a : Nat) : s.cellAt a = 0 := by
  obtain ⟨-, -, htape⟩ := h.scan_untouched hp
  unfold State.cellAt
  rw [htape, Memory.read_nil]

/-! ### The statements -/

/-- Settles O31: the stray `]` by `scanStep_stray`, the paired one by the entries of `link`. -/
theorem scanPairsClose : Obligations.ScanPairsClose := by
  intro s hr hp hc
  refine ⟨fun hempty => ?_, fun o rest hstack => ?_⟩
  · rw [step_of_scan hr hp, scanStep_stray (s := s.tick) hc hempty]
    rfl
  · have hunit : scanUnit s.scanI closeCode s.stack s.jt = some (rest, s.jt.link o s.scanI) := by
      rw [hstack, scanUnit_close]
    have htop : o ∈ s.stack := hstack ▸ List.mem_cons_self
    exact ⟨_, step_of_scan_unit hr hp hc hunit, s.jt.entry_link_open o s.scanI, s.jt.entry_link_close o s.scanI,
      fun _ => s.jt.entry_link_other, rfl, fun hinv => hinv.scan_stack hp o htop⟩

/-- Settles O30: the pushed address is inside the program, whose length is the stack's capacity. -/
theorem scanPushesOpen : Obligations.ScanPushesOpen := by
  intro s hr hp hc
  refine ⟨step_of_scan_unit hr hp hc (scanUnit_open s.scanI s.stack s.jt), fun hle => ?_⟩
  have hlt : s.scanI < s.params.progLen := State.lt_progLen_of_codeAt hc
  calc (s.scanI :: s.stack).length = s.stack.length + 1 := List.length_cons
    _ ≤ s.params.progLen := by omega

/-- Settles O32: at such a code unit `scanUnit` answers the stack and the table it was given. -/
theorem scanPassesOther : Obligations.ScanPassesOther :=
  fun s _ hr hp hc hopen hclose => step_of_scan_unit hr hp hc (scanUnit_other hopen hclose s.stack s.jt)

/-- Settles O33: nothing is left to scan, and the stack decides; the rest is the invariant's part on SCAN. -/
theorem scanEnds : Obligations.ScanEnds := by
  intro s hr hp hend
  have hstep : step s =
      .next (if s.stack.isEmpty then { s.tick with phase := .run } else s.tick.raise .syntaxOpen) := by
    rw [step_of_scan hr hp, scanStep_end (s := s.tick) (State.codeAt_eq_none_iff.mpr hend)]
    rfl
  refine ⟨fun hleft => ?_, fun hempty => ?_, fun hinv => ?_⟩
  · rw [hstep, if_neg (by simpa using hleft)]
    rfl
  · rw [hstep, if_pos (by simpa using hempty)]
    rfl
  · obtain ⟨hpc, hptr, -⟩ := hinv.scan_untouched hp
    exact ⟨hpc, hptr, hinv.scan_cellAt hp⟩

end Sys2Proof.Machine
end

section
/-! One step of phase RUN with `rst` released (R75), the halting step (R76), and NOP (R78). -/

namespace Sys2Proof.Machine

theorem step_of_run {s : State} (hr : s.rstAsserted = false) (hp : s.phase = .run) : step s = runStep s.tick := by
  rw [step_of_released hr, releasedStep_run (s.tick_phase.trans hp)]

/-- The halting step (R76): with nothing left to fetch, `phase` is the one field of the machine that is written. -/
theorem step_of_run_past_end {s : State} (hr : s.rstAsserted = false) (hp : s.phase = .run)
    (hend : s.params.progLen ≤ s.pc) : step s = .next { s.tick with phase := .halted } := by
  have hfetch : s.tick.fetch = none := s.tick_fetch.trans (fetch_eq_none.mpr hend)
  rw [step_of_run hr hp, runStep_past_end hfetch]

theorem exec_nop (c : Nat) (s : State) : exec (.nop c) s = .next s.advance := rfl

/-- `pc` is the one field an advance writes (R77). -/
theorem State.advance_eq (s : State) : s.advance = { s with pc := s.pc + 1 } := rfl

/-- Settles O8: nothing is left to fetch, and the two outputs report the phase HALTED. -/
theorem haltingStep : Obligations.HaltingStep := by
  intro s hr hp hend
  refine ⟨{ s.tick with phase := .halted }, step_of_run_past_end hr hp hend, rfl, ?_, ?_⟩
  · exact (State.done_eq_true_iff _).mpr (.inl rfl)
  · exact Bool.eq_false_iff.mpr fun h => nomatch (State.status_eq_true_iff _).mp h

/-- Settles O10: a NOP has no effect before its advance, whatever its code unit. -/
theorem nopCompletes : Obligations.NopCompletes := by
  intro c s
  rw [exec_nop, s.advance_eq]

end Sys2Proof.Machine
end

section
/-! RIGHT and LEFT: one step around the circular tape (R85, R86). -/

namespace Sys2Proof.Machine

theorem exec_right (s : State) : exec .right s = .next (s.setPtr (rightOf s.params.tapeLen s.ptr)).advance := rfl

theorem exec_left (s : State) : exec .left s = .next (s.setPtr (leftOf s.params.tapeLen s.ptr)).advance := rfl

/-- `ptr` and `pc` are the two fields a pointer move writes (R85, R86). -/
theorem State.setPtr_advance_eq (s : State) (p : Nat) :
    (s.setPtr p).advance = { s with ptr := p, pc := s.pc + 1 } := rfl

/-- From the last cell RIGHT comes round to cell 0 (R85's corner case). -/
theorem rightOf_last {n : Nat} (h : 1 ≤ n) : rightOf n (n - 1) = 0 := by
  unfold rightOf
  rw [Nat.sub_add_cancel h, Nat.mod_self]

/-- R86's equivalent form. Off cell 0 the sum is `p - 1` and one whole turn. -/
theorem leftOf_eq_mod {n p : Nat} (h : p < n) : leftOf n p = (p + n - 1) % n := by
  unfold leftOf
  split
  · next hzero =>
    have hlast : p + n - 1 = n - 1 := by omega
    rw [hlast, Nat.mod_eq_of_lt (by omega)]
  · next hpos =>
    have hturn : p + n - 1 = p - 1 + n := by omega
    rw [hturn, Nat.add_mod_right, Nat.mod_eq_of_lt (by omega)]

/-- Settles O11: the wrap at the last index holds because a tape has at least one cell. -/
theorem rightCompletes : Obligations.RightCompletes := by
  intro s
  refine ⟨?_, fun hlast => ⟨_, exec_right s, ?_⟩⟩
  · rw [exec_right, s.setPtr_advance_eq, rightOf]
  · rw [State.advance_ptr, State.setPtr_ptr, hlast, rightOf_last s.params.tapeLen_pos]

/-- Settles O12: the next state by the definition of `leftOf`, the modular form by `leftOf_eq_mod`. -/
theorem leftCompletes : Obligations.LeftCompletes := by
  intro s
  refine ⟨?_, fun hptr => ⟨_, exec_left s, ?_⟩⟩
  · rw [exec_left, s.setPtr_advance_eq, leftOf]
  · rw [State.advance_ptr, State.setPtr_ptr, leftOf_eq_mod hptr]

end Sys2Proof.Machine
end

section
/-! INC and DEC: a new value in the current cell, and one address on (R90, R91). -/

namespace Sys2Proof.Machine

/-! ### A byte stored in the current cell, then the advance -/

theorem State.cellAt_setCell_advance_same (s : State) (v : Byte) : (s.setCell v).advance.cellAt s.ptr = v :=
  (s.cellAt_setCell v s.ptr).trans (if_pos rfl)

theorem State.cellAt_setCell_advance_other (s : State) (v : Byte) {a : Nat} (h : a ≠ s.ptr) :
    (s.setCell v).advance.cellAt a = s.cellAt a :=
  (s.cellAt_setCell v a).trans (if_neg h)

/-- `tape` and `pc` are the two fields the store and the advance write. -/
theorem State.setCell_advance_eq (s : State) (v : Byte) :
    (s.setCell v).advance = { s with tape := s.tape.write s.ptr v, pc := s.pc + 1 } := rfl

/-! ### INC and DEC with the pointer on the tape -/

theorem exec_inc_of_lt {s : State} (h : s.ptr < s.params.tapeLen) :
    exec .inc s = .next (s.setCell (incByte (s.cellAt s.ptr))).advance :=
  execInc_eq_next.mpr ⟨h, rfl⟩

theorem exec_dec_of_lt {s : State} (h : s.ptr < s.params.tapeLen) :
    exec .dec s = .next (s.setCell (decByte (s.cellAt s.ptr))).advance :=
  execDec_eq_next.mpr ⟨h, rfl⟩

/-- Settles O13: the stored byte is `incByte` of the cell's value, by cases as R90 says it and modulo 256 by
`incByte_toNat`. -/
theorem incCompletes : Obligations.IncCompletes := by
  intro s hptr
  refine ⟨_, exec_inc_of_lt hptr, ?_, ?_, fun _ => s.cellAt_setCell_advance_other _, s.setCell_advance_eq _⟩
  · rw [s.cellAt_setCell_advance_same, incByte]
  · rw [s.cellAt_setCell_advance_same, incByte_toNat]

/-- Settles O14: the stored byte is `decByte` of the cell's value, by cases as R91 says it and modulo 256 by
`decByte_toNat`. -/
theorem decCompletes : Obligations.DecCompletes := by
  intro s hptr
  refine ⟨_, exec_dec_of_lt hptr, ?_, ?_, fun _ => s.cellAt_setCell_advance_other _, s.setCell_advance_eq _⟩
  · rw [s.cellAt_setCell_advance_same, decByte]
  · rw [s.cellAt_setCell_advance_same, decByte_toNat]

end Sys2Proof.Machine
end

section
/-! OUT: the current cell's byte appended to the output stream, and one address on (R95). -/

namespace Sys2Proof.Machine

/-- `output` and `pc` are the two fields the byte put out and the advance write. -/
theorem State.outPut_advance_eq (s : State) (b : Byte) :
    (s.outPut b).advance = { s with output := s.output ++ [b], pc := s.pc + 1 } := rfl

theorem exec_output_of_lt {s : State} (h : s.ptr < s.params.tapeLen) :
    exec .output s = .next (s.outPut (s.cellAt s.ptr)).advance :=
  execOutput_eq_next.mpr ⟨h, rfl⟩

/-- Settles O15: with the pointer on the tape OUT puts out the current cell's byte, and the next state is that of
`outPut_advance_eq`. -/
theorem outCompletes : Obligations.OutCompletes := by
  intro s hptr
  rw [exec_output_of_lt hptr, s.outPut_advance_eq]

end Sys2Proof.Machine
end

section
/-! OPEN and CLOSE: past the table's entry at `pc` if taken, past `pc` if not (R100, R101). -/

namespace Sys2Proof.Machine

/-- `pc` is the one field a jump writes (R77). -/
theorem State.goPast_eq (s : State) (target : Nat) : s.goPast target = { s with pc := target + 1 } := rfl

/-! ### With the pointer on the tape, the current cell decides whether the branch is taken -/

theorem exec_openLoop_of_lt {s : State} (h : s.ptr < s.params.tapeLen) :
    exec .openLoop s = branch (isZero (s.cellAt s.ptr)) s :=
  onCell_of_lt h fun v => branch (isZero v) s

theorem exec_closeLoop_of_lt {s : State} (h : s.ptr < s.params.tapeLen) :
    exec .closeLoop s = branch (!isZero (s.cellAt s.ptr)) s :=
  onCell_of_lt h fun v => branch (!isZero v) s

/-- Settles O17: OPEN is taken at a zero cell, and only then needs the entry at `pc`. -/
theorem openCompletes : Obligations.OpenCompletes := by
  intro s hptr
  rw [exec_openLoop_of_lt hptr]
  refine ⟨fun hzero target hentry => ?_, fun hne => ?_⟩
  · rw [hzero, isZero_zero, branch_taken hentry, s.goPast_eq]
  · rw [isZero_of_ne hne, branch_not_taken, s.advance_eq]

/-- Settles O18: CLOSE is taken at a nonzero cell, and only then needs the entry at `pc`. -/
theorem closeCompletes : Obligations.CloseCompletes := by
  intro s hptr
  rw [exec_closeLoop_of_lt hptr]
  refine ⟨fun hne target hentry => ?_, fun hzero => ?_⟩
  · rw [isZero_of_ne hne, Bool.not_false, branch_taken hentry, s.goPast_eq]
  · rw [hzero, isZero_zero, Bool.not_true, branch_not_taken, s.advance_eq]

end Sys2Proof.Machine
end

section
/-! The decoder and the encoder as each other's inverse (R46 to R48, R52). -/

namespace Sys2Proof

/-! ### Encoding what was decoded, and the other way round -/

/-- The decoder reads an operator only from the operator's own code unit, and NOP keeps its code unit. -/
@[simp] theorem encode_decode (c : Nat) : encode (decode c) = c := by
  unfold decode
  split_ifs with h1 h2 h3 h4 h5 h6 h7 h8
  · exact h1.symm
  · exact h2.symm
  · exact h3.symm
  · exact h4.symm
  · exact h5.symm
  · exact h6.symm
  · exact h7.symm
  · exact h8.symm
  · rfl

theorem decode_of_not_operator {c : Nat} (h : c ∉ operatorCodes) : decode c = .nop c := by
  simp only [operatorCodes, List.mem_cons, List.not_mem_nil, or_false, not_or] at h
  simp only [decode, h, if_false]

/-- The eight operators do not decode to NOP (R46). -/
theorem decode_operator_ne_nop {c : Nat} (h : c ∈ operatorCodes) (d : Nat) : decode c ≠ .nop d := by
  simp only [operatorCodes, List.mem_cons, List.not_mem_nil, or_false] at h
  rcases h with rfl | rfl | rfl | rfl | rfl | rfl | rfl | rfl <;> exact nofun

theorem decode_eq_nop_iff {c d : Nat} : decode c = .nop d ↔ d = c ∧ c ∉ operatorCodes := by
  constructor
  · intro h
    have hcode : encode (decode c) = d := congrArg encode h
    exact ⟨hcode.symm.trans (encode_decode c), fun hop => decode_operator_ne_nop hop d h⟩
  · rintro ⟨rfl, hop⟩
    exact decode_of_not_operator hop

/-- An instruction that its code unit decodes to is decoded from that code unit alone. -/
theorem decode_eq_iff {i : Instr} (hi : decode (encode i) = i) {c : Nat} : decode c = i ↔ c = encode i :=
  ⟨fun h => by rw [← h, encode_decode], fun h => h ▸ hi⟩

/-! ### Well-formed instructions -/

theorem wellFormed_nop_iff {charW c : Nat} :
    (Instr.nop c).wellFormed charW = true ↔ c < 2 ^ charW ∧ c ∉ operatorCodes := by
  simp [Instr.wellFormed]

/-- A well-formed NOP is no operator's code unit (R47), so it too is decoded to itself. -/
theorem decode_encode {charW : Nat} {i : Instr} (h : i.wellFormed charW = true) : decode (encode i) = i := by
  cases i with
  | right | left | inc | dec | output | input | openLoop | closeLoop => rfl
  | nop c =>
    obtain ⟨-, hop⟩ := wellFormed_nop_iff.mp h
    exact decode_of_not_operator hop

/-- The code unit of every well-formed instruction fits, by the lemma of each constructor. -/
theorem encode_lt {charW : Nat} (hw : 7 ≤ charW) {i : Instr} (h : i.wellFormed charW = true) :
    encode i < 2 ^ charW :=
  match i with
  | .right => Laws.EncodingFits.right charW hw h
  | .left => Laws.EncodingFits.left charW hw h
  | .inc => Laws.EncodingFits.inc charW hw h
  | .dec => Laws.EncodingFits.dec charW hw h
  | .output => Laws.EncodingFits.output charW hw h
  | .input => Laws.EncodingFits.input charW hw h
  | .openLoop => Laws.EncodingFits.openLoop charW hw h
  | .closeLoop => Laws.EncodingFits.closeLoop charW hw h
  | .nop c => Laws.EncodingFits.nop c charW hw h

theorem wellFormed_decode {charW c : Nat} (h : c < 2 ^ charW) : (decode c).wellFormed charW = true := by
  cases hd : decode c with
  | right | left | inc | dec | output | input | openLoop | closeLoop => rfl
  | nop d =>
    obtain ⟨rfl, hop⟩ := decode_eq_nop_iff.mp hd
    exact wellFormed_nop_iff.mpr ⟨h, hop⟩

/-! ### Whole programs -/

theorem progFits_iff {charW : Nat} {prog : List Nat} : progFits charW prog = true ↔ ∀ c ∈ prog, c < 2 ^ charW := by
  simp [progFits]

theorem encodeProgram_decodeProgram (prog : List Nat) : encodeProgram (decodeProgram prog) = prog := by
  have hid : encode ∘ decode = id := funext encode_decode
  rw [encodeProgram, decodeProgram, List.map_map, hid, List.map_id]

theorem decodeProgram_encodeProgram {charW : Nat} {is : List Instr} (h : ∀ i ∈ is, i.wellFormed charW = true) :
    decodeProgram (encodeProgram is) = is := by
  rw [decodeProgram, encodeProgram, List.map_map]
  exact (List.map_congr_left fun i hi => decode_encode (h i hi)).trans (List.map_id is)

theorem progFits_encodeProgram {charW : Nat} (hw : 7 ≤ charW) {is : List Instr}
    (h : ∀ i ∈ is, i.wellFormed charW = true) : progFits charW (encodeProgram is) = true := by
  refine progFits_iff.mpr fun c hc => ?_
  obtain ⟨i, hi, rfl⟩ := List.mem_map.mp hc
  exact encode_lt hw (h i hi)

theorem wellFormed_of_mem_decodeProgram {charW : Nat} {prog : List Nat} (h : progFits charW prog = true) :
    ∀ i ∈ decodeProgram prog, i.wellFormed charW = true := by
  intro i hi
  obtain ⟨c, hc, rfl⟩ := List.mem_map.mp hi
  exact wellFormed_decode (progFits_iff.mp h c hc)

/-! ### The statements -/

/-- Settles O5: instruction by instruction, `decode_encode` one way and `encode_decode` the other. -/
theorem programTextRoundTrip : Obligations.ProgramTextRoundTrip := by
  intro charW hw
  refine ⟨fun is his => ?_, fun prog hfits => ?_⟩
  · exact ⟨decodeProgram_encodeProgram his, progFits_encodeProgram hw his⟩
  · exact ⟨encodeProgram_decodeProgram prog, wellFormed_of_mem_decodeProgram hfits⟩

/-- Settles O4: each operator by `decode_eq_iff`, NOP by `decode_eq_nop_iff`. -/
theorem decodeIsTheOpcodeMap : Obligations.DecodeIsTheOpcodeMap := fun _ =>
  ⟨decode_eq_iff (i := .right) rfl, decode_eq_iff (i := .left) rfl, decode_eq_iff (i := .inc) rfl,
    decode_eq_iff (i := .dec) rfl, decode_eq_iff (i := .output) rfl, decode_eq_iff (i := .input) rfl,
    decode_eq_iff (i := .openLoop) rfl, decode_eq_iff (i := .closeLoop) rfl, fun _ => decode_eq_nop_iff⟩

/-- Settles O3: the operators' words are their code units, and none of the other five units is an operator's. -/
theorem operatorWordsDecode : Obligations.OperatorWordsDecode :=
  ⟨rfl, rfl, rfl, rfl, rfl, rfl, rfl, rfl, decode_of_not_operator (by decide), decode_of_not_operator (by decide),
    decode_of_not_operator (by decide), decode_of_not_operator (by decide), decode_of_not_operator (by decide)⟩

end Sys2Proof
end

section
/-! What one instruction can answer as a next state, all nine in one relation, and the frames read off it. -/

namespace Sys2Proof.Machine

/-- The next states of the nine instructions, one constructor for each way an instruction completes (R78, R85, R86, R90, R91,
R95, R96, R100, R101); `exec_eq_next_iff` ties it to `exec`. -/
inductive Completes (s : State) : Instr → State → Prop where
  | right : Completes s .right (s.setPtr (rightOf s.params.tapeLen s.ptr)).advance
  | left : Completes s .left (s.setPtr (leftOf s.params.tapeLen s.ptr)).advance
  | inc (hptr : s.ptr < s.params.tapeLen) : Completes s .inc (s.setCell (incByte (s.cellAt s.ptr))).advance
  | dec (hptr : s.ptr < s.params.tapeLen) : Completes s .dec (s.setCell (decByte (s.cellAt s.ptr))).advance
  | output (hptr : s.ptr < s.params.tapeLen) : Completes s .output (s.outPut (s.cellAt s.ptr)).advance
  | inByte (b : Byte) (hpoll : s.inPoll = .byte b) (hptr : s.ptr < s.params.tapeLen) :
      Completes s .input (s.inTake.setCell b).advance
  | inEof (hpoll : s.inPoll = .eof) : Completes s .input (s.raise .ioEof)
  | inNotYet (hpoll : s.inPoll = .notYet) : Completes s .input s.inWait
  | openTaken (target : Nat) (hptr : s.ptr < s.params.tapeLen) (hcell : s.cellAt s.ptr = 0)
      (hentry : s.jt.entry s.pc = some target) : Completes s .openLoop (s.goPast target)
  | openPassed (hptr : s.ptr < s.params.tapeLen) (hcell : s.cellAt s.ptr ≠ 0) : Completes s .openLoop s.advance
  | closeTaken (target : Nat) (hptr : s.ptr < s.params.tapeLen) (hcell : s.cellAt s.ptr ≠ 0)
      (hentry : s.jt.entry s.pc = some target) : Completes s .closeLoop (s.goPast target)
  | closePassed (hptr : s.ptr < s.params.tapeLen) (hcell : s.cellAt s.ptr = 0) : Completes s .closeLoop s.advance
  | nop (c : Nat) : Completes s (.nop c) s.advance

theorem exec_input (s : State) : exec .input s = execInput s := rfl

theorem isZero_eq_false_iff (v : Byte) : isZero v = false ↔ v ≠ 0 := by
  rw [← Bool.not_eq_true, isZero_iff]

theorem completes_of_exec {i : Instr} {s t : State} (h : exec i s = .next t) : Completes s i t := by
  cases i with
  | right => cases h; exact .right
  | left => cases h; exact .left
  | inc => obtain ⟨hptr, rfl⟩ := execInc_eq_next.mp h; exact .inc hptr
  | dec => obtain ⟨hptr, rfl⟩ := execDec_eq_next.mp h; exact .dec hptr
  | output => obtain ⟨hptr, rfl⟩ := execOutput_eq_next.mp h; exact .output hptr
  | input =>
    rcases execInput_eq_next.mp h with ⟨b, hpoll, hptr, rfl⟩ | ⟨hpoll, rfl⟩ | ⟨hpoll, rfl⟩
    · exact .inByte b hpoll hptr
    · exact .inEof hpoll
    · exact .inNotYet hpoll
  | openLoop =>
    obtain ⟨hptr, hb⟩ := execOpenLoop_eq_next.mp h
    rcases branch_eq_next.mp hb with ⟨hcell, rfl⟩ | ⟨hcell, target, hentry, rfl⟩
    · exact .openPassed hptr ((isZero_eq_false_iff _).mp hcell)
    · exact .openTaken target hptr ((isZero_iff _).mp hcell) hentry
  | closeLoop =>
    obtain ⟨hptr, hb⟩ := execCloseLoop_eq_next.mp h
    rcases branch_eq_next.mp hb with ⟨hcell, rfl⟩ | ⟨hcell, target, hentry, rfl⟩
    · exact .closePassed hptr (by simpa using hcell)
    · exact .closeTaken target hptr (by simpa [isZero_eq_false_iff] using hcell) hentry
  | nop c => cases h; exact .nop c

theorem exec_of_completes {i : Instr} {s t : State} (h : Completes s i t) : exec i s = .next t := by
  cases h with
  | right | left | nop => rfl
  | inc hptr => exact exec_inc_of_lt hptr
  | dec hptr => exact exec_dec_of_lt hptr
  | output hptr => exact exec_output_of_lt hptr
  | inByte b hpoll hptr => exact execInput_eq_next.mpr (.inl ⟨b, hpoll, hptr, rfl⟩)
  | inEof hpoll => exact execInput_eq_next.mpr (.inr (.inl ⟨hpoll, rfl⟩))
  | inNotYet hpoll => exact execInput_eq_next.mpr (.inr (.inr ⟨hpoll, rfl⟩))
  | openTaken target hptr hcell hentry => rw [exec_openLoop_of_lt hptr, hcell]; exact branch_taken hentry
  | openPassed hptr hcell => rw [exec_openLoop_of_lt hptr, isZero_of_ne hcell, branch_not_taken]
  | closeTaken target hptr hcell hentry =>
    rw [exec_closeLoop_of_lt hptr, isZero_of_ne hcell]; exact branch_taken hentry
  | closePassed hptr hcell => rw [exec_closeLoop_of_lt hptr, hcell]; rfl

/-- All that one instruction can answer as a next state. -/
theorem exec_eq_next_iff {i : Instr} {s t : State} : exec i s = .next t ↔ Completes s i t :=
  ⟨completes_of_exec, exec_of_completes⟩

/-! ### What the instructions leave -/

/-- No instruction writes the jump table, the scan's state, the parameters or the levels of `rst`. -/
theorem Completes.frame {i : Instr} {s t : State} (h : Completes s i t) :
    t.jt = s.jt ∧ t.scanI = s.scanI ∧ t.stack = s.stack ∧ t.params = s.params ∧ t.rst = s.rst := by
  cases h <;> exact ⟨rfl, rfl, rfl, rfl, rfl⟩

/-- Only an IN at the end of the stream writes `phase` and `fault` (R96). -/
theorem Completes.phase_fault {i : Instr} {s t : State} (h : Completes s i t) :
    (t.phase = s.phase ∧ t.fault = s.fault) ∨ (i = .input ∧ s.inPoll = .eof ∧ t = s.raise .ioEof) := by
  cases h with
  | inEof hpoll => exact .inr ⟨rfl, hpoll, rfl⟩
  | right | left | inc | dec | output | inByte | inNotYet | openTaken | openPassed | closeTaken | closePassed | nop =>
    exact .inl ⟨rfl, rfl⟩

/-- Only INC, DEC and an IN that takes a byte store to the tape, and only to the current cell (R14). -/
theorem Completes.cellAt {i : Instr} {s t : State} (h : Completes s i t) :
    (∀ a, t.cellAt a = s.cellAt a) ∨
    ((i = .inc ∨ i = .dec ∨ i = .input ∧ ∃ b, s.inPoll = .byte b) ∧ ∀ a, a ≠ s.ptr → t.cellAt a = s.cellAt a) := by
  cases h with
  | inc => exact .inr ⟨.inl rfl, fun _ => s.cellAt_setCell_advance_other _⟩
  | dec => exact .inr ⟨.inr (.inl rfl), fun _ => s.cellAt_setCell_advance_other _⟩
  | inByte b hpoll => exact .inr ⟨.inr (.inr ⟨rfl, b, hpoll⟩), fun _ => s.inTake.cellAt_setCell_advance_other _⟩
  | right | left | output | inEof | inNotYet | openTaken | openPassed | closeTaken | closePassed | nop =>
    exact .inl fun _ => rfl

/-- Only RIGHT and LEFT write `ptr` (R15). -/
theorem Completes.ptr {i : Instr} {s t : State} (h : Completes s i t) :
    t.ptr = s.ptr ∨ i = .right ∨ i = .left := by
  cases h with
  | right => exact .inr (.inl rfl)
  | left => exact .inr (.inr rfl)
  | inc | dec | output | inByte | inEof | inNotYet | openTaken | openPassed | closeTaken | closePassed | nop =>
    exact .inl rfl

/-- Only OUT writes the output stream, by the byte of the current cell (R95). -/
theorem Completes.output_eq {i : Instr} {s t : State} (h : Completes s i t) :
    t.output = if i = .output then s.output ++ [s.cellAt s.ptr] else s.output := by
  cases h <;> rfl

/-- Only IN touches the input stream. -/
theorem Completes.input_eq {i : Instr} {s t : State} (h : Completes s i t) (hi : i ≠ .input) : t.input = s.input := by
  cases h with
  | inByte | inEof | inNotYet => exact absurd rfl hi
  | right | left | inc | dec | output | openTaken | openPassed | closeTaken | closePassed | nop => rfl

/-! ### The frames -/

/-- Settles O24: both moves are a `setPtr` and an advance. -/
theorem pointerMoveFrame : Obligations.PointerMoveFrame := by
  intro i s t hi h
  obtain ⟨p, rfl⟩ : ∃ p, t = (s.setPtr p).advance := by
    rcases hi with rfl | rfl
    · cases completes_of_exec h; exact ⟨_, rfl⟩
    · cases completes_of_exec h; exact ⟨_, rfl⟩
  exact ⟨rfl, rfl, fun _ => rfl, rfl, rfl, rfl, rfl, rfl, rfl, rfl⟩

/-- OPEN, CLOSE and NOP do nothing but go past some address, `pc` or the table's entry (R77). -/
theorem eq_goPast_of_branch_or_nop {i : Instr} {s t : State}
    (hi : i = .openLoop ∨ i = .closeLoop ∨ ∃ c, i = .nop c) (h : Completes s i t) :
    ∃ target, t = s.goPast target := by
  rcases hi with rfl | rfl | ⟨c, rfl⟩
  · cases h with
    | openTaken target => exact ⟨target, rfl⟩
    | openPassed => exact ⟨s.pc, rfl⟩
  · cases h with
    | closeTaken target => exact ⟨target, rfl⟩
    | closePassed => exact ⟨s.pc, rfl⟩
  · cases h; exact ⟨s.pc, rfl⟩

/-- Settles O25: a jump writes `pc` alone. -/
theorem branchAndNopFrame : Obligations.BranchAndNopFrame := by
  intro i s t hi h
  obtain ⟨target, rfl⟩ := eq_goPast_of_branch_or_nop hi (completes_of_exec h)
  exact ⟨rfl, rfl, rfl, fun _ => rfl, rfl, rfl, rfl, rfl, rfl, rfl, rfl⟩

/-- Settles O26: both are a byte stored in the current cell and an advance. -/
theorem cellArithmeticFrame : Obligations.CellArithmeticFrame := by
  intro i s t hi h
  obtain ⟨v, rfl⟩ : ∃ v, t = (s.setCell v).advance := by
    rcases hi with rfl | rfl
    · cases completes_of_exec h; exact ⟨_, rfl⟩
    · cases completes_of_exec h; exact ⟨_, rfl⟩
  exact ⟨rfl, rfl, rfl, fun _ => s.cellAt_setCell_advance_other v, rfl, rfl, rfl, rfl, rfl, rfl, rfl⟩

/-- Settles O27: a byte put out and an advance. -/
theorem outFrame : Obligations.OutFrame := by
  intro s t h
  obtain ⟨-, rfl⟩ := execOutput_eq_next.mp h
  exact ⟨rfl, rfl, rfl, fun _ => rfl, rfl, rfl, rfl, rfl, rfl, rfl⟩

/-- Settles O28: the three ways IN completes; only the first stores, only the second writes `phase` and `fault`. -/
theorem inFrame : Obligations.InFrame := by
  intro s t h
  cases completes_of_exec h with
  | inByte b hpoll =>
    exact ⟨rfl, fun _ => s.inTake.cellAt_setCell_advance_other b, fun hno => absurd hpoll (hno b), fun _ => ⟨rfl, rfl⟩,
      rfl, rfl, rfl, rfl, rfl, rfl⟩
  | inEof hpoll =>
    exact ⟨rfl, fun _ _ => rfl, fun _ _ => rfl, fun hne => absurd hpoll hne, rfl, rfl, rfl, rfl, rfl, rfl⟩
  | inNotYet => exact ⟨rfl, fun _ _ => rfl, fun _ _ => rfl, fun _ => ⟨rfl, rfl⟩, rfl, rfl, rfl, rfl, rfl, rfl⟩

/-! ### The advance of `pc` -/

/-- Settles O29: a taken branch goes past the table's entry, every other completion past `pc`, and the two INs that take no
byte leave `pc`. -/
theorem pcAdvance : Obligations.PcAdvance := by
  intro i s t h
  cases completes_of_exec h with
  | inEof hpoll | inNotYet hpoll => exact .inl ⟨rfl, fun b => by simp [hpoll], rfl⟩
  | inByte b hpoll => exact .inr ⟨fun hno => hno.2 b hpoll, _, rfl, rfl⟩
  | openTaken target _ hcell hentry => exact .inr ⟨nofun, target, (if_pos hcell).trans hentry, rfl⟩
  | openPassed _ hcell => exact .inr ⟨nofun, _, if_neg hcell, rfl⟩
  | closeTaken target _ hcell hentry => exact .inr ⟨nofun, target, (if_neg hcell).trans hentry, rfl⟩
  | closePassed _ hcell => exact .inr ⟨nofun, _, if_pos hcell, rfl⟩
  | right | left | inc | dec | output | nop => exact .inr ⟨nofun, _, rfl, rfl⟩

end Sys2Proof.Machine
end

section
/-! IN by what the stream offers (R96), and the model's two stops (log entry 5). -/

namespace Sys2Proof.Machine

/-- Settles O16: one way to complete for each offer; `InStream.bytes_take` says which byte left, and waiting loses none. -/
theorem inCompletes : Obligations.InCompletes := by
  intro s
  refine ⟨fun b hpoll hptr => ?_, fun hpoll => exec_of_completes (.inEof hpoll), fun hpoll => ?_⟩
  · exact ⟨_, exec_of_completes (.inByte b hpoll hptr), s.inTake.cellAt_setCell_advance_same b,
      fun _ => s.inTake.cellAt_setCell_advance_other b, InStream.bytes_take hpoll, s.input.ended_take, rfl⟩
  · exact ⟨s.input.wait, s.input.bytes_wait, s.input.ended_wait, exec_of_completes (.inNotYet hpoll)⟩

/-! ### The five instructions that always look at the current cell first -/

theorem exec_inc (s : State) : exec .inc s = onCell s fun v => .next (s.setCell (incByte v)).advance := rfl

theorem exec_dec (s : State) : exec .dec s = onCell s fun v => .next (s.setCell (decByte v)).advance := rfl

theorem exec_output (s : State) : exec .output s = onCell s fun v => .next (s.outPut v).advance := rfl

theorem exec_openLoop (s : State) : exec .openLoop s = onCell s fun v => branch (isZero v) s := rfl

theorem exec_closeLoop (s : State) : exec .closeLoop s = onCell s fun v => branch (!isZero v) s := rfl

theorem onCell_off_tape {s : State} (h : s.params.tapeLen ≤ s.ptr) (k : Byte → Result) :
    onCell s k = .fault (.noSuchCell s.ptr) := if_neg (Nat.not_lt.mpr h)

theorem branch_no_entry {s : State} (h : s.jt.entry s.pc = none) : branch true s = .fault (.noJumpEntry s.pc) := by
  simp [branch, h]

/-- Settles O60: off the tape by `onCell_off_tape`, off the table by `branch_no_entry`. -/
theorem stopsOffTapeAndTable : Obligations.StopsOffTapeAndTable := by
  intro s
  refine ⟨fun hoff => ⟨?_, fun b hpoll => ?_⟩, fun hptr hentry => ⟨fun hcell => ?_, fun hcell => ?_⟩⟩
  · rintro i (rfl | rfl | rfl | rfl | rfl) <;>
      simp only [exec_inc, exec_dec, exec_output, exec_openLoop, exec_closeLoop, onCell_off_tape hoff]
  · rw [exec_input, execInput, hpoll]
    exact onCell_off_tape hoff _
  · rw [exec_openLoop_of_lt hptr, hcell, isZero_zero, branch_no_entry hentry]
  · rw [exec_closeLoop_of_lt hptr, isZero_of_ne hcell, Bool.not_false, branch_no_entry hentry]

end Sys2Proof.Machine
end

section
/-! Instructions executed in a row: LEFT against RIGHT, DEC against INC, once round the tape and once round the byte. -/

namespace Sys2Proof.Machine

theorem repeatExec_succ {i : Instr} {s t : State} (h : exec i s = .next t) (k : Nat) :
    repeatExec (k + 1) i s = repeatExec k i t := by
  rw [repeatExec, h]

/-! ### Pointer moves -/

/-- R86: RIGHT past the last index comes to 0, and LEFT of 0 is the last index. -/
theorem leftOf_rightOf {n p : Nat} (h : p < n) : leftOf n (rightOf n p) = p := by
  unfold leftOf rightOf
  by_cases hlast : p + 1 = n
  · rw [hlast, Nat.mod_self, if_pos rfl]
    omega
  · rw [Nat.mod_eq_of_lt (by omega), if_neg (by omega), Nat.add_sub_cancel]

theorem rightOf_leftOf {n p : Nat} (h : p < n) : rightOf n (leftOf n p) = p := by
  unfold leftOf rightOf
  split
  · next hzero => rw [Nat.sub_add_cancel (by omega), Nat.mod_self, hzero]
  · next hpos => rw [Nat.sub_add_cancel (by omega), Nat.mod_eq_of_lt h]

/-- Settles O20: both moves always complete, and their index functions are each other's inverse on the tape. -/
theorem leftAndRightUndoEachOther : Obligations.LeftAndRightUndoEachOther := fun s hptr =>
  ⟨⟨_, _, exec_right s, exec_left _, leftOf_rightOf hptr⟩, ⟨_, _, exec_left s, exec_right _, rightOf_leftOf hptr⟩⟩

theorem rightOf_add_mod (n p k : Nat) : rightOf n ((p + k) % n) = (p + (k + 1)) % n := by
  rw [rightOf, Nat.mod_add_mod, Nat.add_assoc]

/-- `k` executions of RIGHT, from `j` places on. -/
theorem repeatExec_right (s : State) (k j : Nat) :
    repeatExec k .right { s with ptr := (s.ptr + j) % s.params.tapeLen, pc := s.pc + j } =
      .next { s with ptr := (s.ptr + (j + k)) % s.params.tapeLen, pc := s.pc + (j + k) } := by
  induction k generalizing j with
  | zero => rfl
  | succ k ih =>
    have hone := exec_right { s with ptr := (s.ptr + j) % s.params.tapeLen, pc := s.pc + j }
    rw [State.setPtr_advance_eq] at hone
    simp only [rightOf_add_mod, Nat.add_assoc] at hone
    rw [repeatExec_succ hone, ih, Nat.add_assoc, Nat.add_comm 1 k]

/-- Settles O21: a whole turn of the tape is 0 modulo its length. -/
theorem rightRoundTheTape : Obligations.RightRoundTheTape := by
  intro s hptr
  have hturn := repeatExec_right s s.params.tapeLen 0
  simp only [Nat.add_zero, Nat.zero_add, Nat.add_mod_right, Nat.mod_eq_of_lt hptr] at hturn
  exact hturn

/-! ### Cell arithmetic -/

/-- INC is the addition of 1 in the ring of bytes, wrap included (R90). -/
theorem incByte_eq_add (v : Byte) : incByte v = v + 1 := by
  unfold incByte
  split
  · next h => rw [h]; rfl
  · rfl

theorem decByte_eq_sub (v : Byte) : decByte v = v - 1 := by
  unfold decByte
  split
  · next h => rw [h]; rfl
  · rfl

theorem Memory.write_write {m : Memory} (h : Memory.wf m) (a : Nat) (v w : Byte) :
    Memory.write (Memory.write m a v) a w = Memory.write m a w := by
  refine Memory.ext (Memory.wf_write (Memory.wf_write h a v) a w) (Memory.wf_write h a w) fun b => ?_
  rw [Memory.read_write, Memory.read_write, Memory.read_write]
  split <;> rfl

theorem Memory.write_read_self {m : Memory} (h : Memory.wf m) (a : Nat) : Memory.write m a (Memory.read m a) = m := by
  refine Memory.ext (Memory.wf_write h a _) h fun b => ?_
  rw [Memory.read_write]
  split
  · next hb => rw [hb]
  · rfl

/-- `s` with `v` in the current cell and `k` addresses on: what `k` executions of INC or DEC leave, with the value that fits. -/
def State.storedAhead (s : State) (v : Byte) (k : Nat) : State := { s.setCell v with pc := s.pc + k }

theorem State.storedAhead_self {s : State} (h : Memory.wf s.tape) (k : Nat) :
    s.storedAhead (s.cellAt s.ptr) k = { s with pc := s.pc + k } := by
  unfold State.storedAhead State.setCell State.cellAt
  rw [Memory.write_read_self h]

@[simp] theorem State.storedAhead_ptr (s : State) (v : Byte) (k : Nat) : (s.storedAhead v k).ptr = s.ptr := rfl

@[simp] theorem State.storedAhead_cellAt_ptr (s : State) (v : Byte) (k : Nat) :
    (s.storedAhead v k).cellAt s.ptr = v := Memory.read_write_same _ _ _

/-- One more store to the same cell, one address further. -/
theorem State.storedAhead_setCell_advance {s : State} (h : Memory.wf s.tape) (v w : Byte) (k : Nat) :
    ((s.storedAhead v k).setCell w).advance = s.storedAhead w (k + 1) := by
  have htape : (s.tape.write s.ptr v).write s.ptr w = s.tape.write s.ptr w := Memory.write_write h s.ptr v w
  simp only [State.storedAhead, State.setCell, State.advance_eq, htape, Nat.add_assoc]

section
variable {s : State} (hptr : s.ptr < s.params.tapeLen) (hwf : Memory.wf s.tape)
include hptr hwf

theorem exec_inc_storedAhead (v : Byte) (k : Nat) :
    exec .inc (s.storedAhead v k) = .next (s.storedAhead (v + 1) (k + 1)) := by
  have hone := exec_inc_of_lt (s := s.storedAhead v k) hptr
  rw [State.storedAhead_setCell_advance hwf, incByte_eq_add, State.storedAhead_ptr, State.storedAhead_cellAt_ptr] at hone
  exact hone

theorem exec_dec_storedAhead (v : Byte) (k : Nat) :
    exec .dec (s.storedAhead v k) = .next (s.storedAhead (v - 1) (k + 1)) := by
  have hone := exec_dec_of_lt (s := s.storedAhead v k) hptr
  rw [State.storedAhead_setCell_advance hwf, decByte_eq_sub, State.storedAhead_ptr, State.storedAhead_cellAt_ptr] at hone
  exact hone

/-- `k` executions of INC add `k` to the current cell. -/
theorem repeatExec_inc_storedAhead (k : Nat) (v : Byte) (j : Nat) :
    repeatExec k .inc (s.storedAhead v j) = .next (s.storedAhead (v + BitVec.ofNat 8 k) (j + k)) := by
  induction k generalizing v j with
  | zero => rw [repeatExec, BitVec.add_zero, Nat.add_zero]
  | succ k ih =>
    have hval : v + 1 + BitVec.ofNat 8 k = v + BitVec.ofNat 8 (k + 1) := by
      rw [BitVec.ofNat_add, BitVec.add_assoc, BitVec.add_comm 1]
      rfl
    rw [repeatExec_succ (exec_inc_storedAhead hptr hwf v j), ih, hval, Nat.add_assoc, Nat.add_comm 1 k]

end

/-- Settles O22: 1 added and taken away again, in either order, and the tape has one canonical form. -/
theorem incAndDecUndoEachOther : Obligations.IncAndDecUndoEachOther := by
  intro s hptr hwf
  have hstart : s.storedAhead (s.cellAt s.ptr) 0 = s := State.storedAhead_self hwf 0
  have hinc := exec_inc_storedAhead hptr hwf (s.cellAt s.ptr) 0
  have hdec := exec_dec_storedAhead hptr hwf (s.cellAt s.ptr) 0
  rw [hstart] at hinc hdec
  refine ⟨⟨_, hinc, ?_⟩, ⟨_, hdec, ?_⟩⟩
  · rw [exec_dec_storedAhead hptr hwf, BitVec.add_sub_cancel, State.storedAhead_self hwf]
  · rw [exec_inc_storedAhead hptr hwf, BitVec.sub_add_cancel, State.storedAhead_self hwf]

/-- Settles O23: 256 is 0 in the ring of bytes. -/
theorem incRoundTheByte : Obligations.IncRoundTheByte := by
  intro s hptr hwf
  have hstart : s.storedAhead (s.cellAt s.ptr) 0 = s := State.storedAhead_self hwf 0
  have hturn := repeatExec_inc_storedAhead hptr hwf 256 (s.cellAt s.ptr) 0
  have hzero : s.cellAt s.ptr + BitVec.ofNat 8 256 = s.cellAt s.ptr := BitVec.add_zero _
  rw [hstart, hzero, Nat.zero_add, State.storedAhead_self hwf] at hturn
  exact hturn

end Sys2Proof.Machine
end

section
/-! Bracket matching read as heights: how many more `[` than `]` stand before an address (R66, R69). -/

namespace Sys2Proof.Machine

/-- How many more `[` than `]` stand at the addresses below `n`. -/
def excess (prog : List Nat) (n : Nat) : Int := (countIn openCode prog 0 n : Int) - countIn closeCode prog 0 n

/-- What one code unit adds to the height. -/
def unitExcess (c : Nat) : Int := if c = openCode then 1 else if c = closeCode then -1 else 0

@[simp] theorem unitExcess_open : unitExcess openCode = 1 := rfl

@[simp] theorem unitExcess_close : unitExcess closeCode = -1 := rfl

theorem unitExcess_other {c : Nat} (ho : c ≠ openCode) (hc : c ≠ closeCode) : unitExcess c = 0 := by
  simp [unitExcess, ho, hc]

theorem neg_one_le_unitExcess (c : Nat) : -1 ≤ unitExcess c := by
  unfold unitExcess
  split_ifs <;> decide

/-! ### Heights from counts -/

theorem countIn_split (c : Nat) (prog : List Nat) {a b : Nat} (h : a ≤ b) :
    countIn c prog 0 b = countIn c prog 0 a + countIn c prog a b := by
  have htext : prog.take b = prog.take a ++ (prog.take b).drop a := by
    conv_lhs => rw [← List.take_append_drop a (prog.take b), List.take_take, Nat.min_eq_left h]
  unfold countIn
  rw [List.drop_zero, List.drop_zero, ← List.count_append, ← htext]

theorem countIn_succ {prog : List Nat} {n x : Nat} (h : prog[n]? = some x) (c : Nat) :
    countIn c prog 0 (n + 1) = countIn c prog 0 n + if x = c then 1 else 0 := by
  simp [countIn, List.take_add_one, h, List.count_singleton]

@[simp] theorem excess_zero (prog : List Nat) : excess prog 0 = 0 := by simp [excess, countIn]

theorem excess_succ {prog : List Nat} {n x : Nat} (h : prog[n]? = some x) :
    excess prog (n + 1) = excess prog n + unitExcess x := by
  unfold excess unitExcess
  rw [countIn_succ h, countIn_succ h]
  by_cases ho : x = openCode
  · subst ho; simp; omega
  by_cases hc : x = closeCode
  · subst hc; simp; omega
  · simp [ho, hc]

/-- A text is balanced where its two ends are of one height. -/
theorem balancedIn_iff {prog : List Nat} {a b : Nat} (h : a ≤ b) :
    BalancedIn prog a b ↔ excess prog a = excess prog b := by
  unfold BalancedIn excess
  rw [countIn_split openCode prog h, countIn_split closeCode prog h]
  omega

theorem strayClose_iff {prog : List Nat} : StrayClose prog ↔ ∃ n, n ≤ prog.length ∧ excess prog n < 0 := by
  unfold StrayClose excess
  exact exists_congr fun n => and_congr_right fun _ => by omega

/-! ### Heights inside a matched pair -/

theorem not_close_of_open {prog : List Nat} {a : Nat} (ho : prog[a]? = some openCode) :
    prog[a]? ≠ some closeCode := by
  rw [ho]; decide

theorem Matches.excess_eq {prog : List Nat} {o c : Nat} (h : Matches prog o c) :
    excess prog o = excess prog (c + 1) :=
  (balancedIn_iff (Nat.le_succ_of_le h.lt.le)).mp h.balanced

/-- Between the two brackets of a pair the height is above the one outside: it cannot come back there before `c`, and it
falls by no more than one an address. -/
theorem Matches.excess_lt {prog : List Nat} {o c : Nat} (h : Matches prog o c) {d : Nat} (hod : o < d) (hdc : d ≤ c) :
    excess prog o < excess prog d := by
  induction d, hod using Nat.le_induction with
  | base =>
    rw [excess_succ h.opens, unitExcess_open]
    omega
  | succ d hod ih =>
    have hlen : d < prog.length := by
      have hc : c < prog.length := (List.getElem?_eq_some_iff.mp h.closes).1
      omega
    have hstep := excess_succ (List.getElem?_eq_getElem hlen)
    have hfall := neg_one_le_unitExcess prog[d]
    have hne : excess prog o ≠ excess prog (d + 1) := fun he =>
      h.least d hod hdc ((balancedIn_iff (by omega)).mpr he)
    have := ih (Nat.le_of_succ_le hdc)
    omega

/-- A `[` has at most one matching `]`. -/
theorem Matches.unique {prog : List Nat} {o c d : Nat} (hc : Matches prog o c) (hd : Matches prog o d) : c = d := by
  rcases Nat.lt_trichotomy c d with h | h | h
  · exact absurd hc.balanced (hd.least c hc.lt h)
  · exact h
  · exact absurd hd.balanced (hc.least d hd.lt h)

/-- Of two pairs whose `[` stand in this order the second is after the first or inside it (R66 b): were it neither, the height
past `c₁` would be both that of `o₁` and above that of `o₂`. -/
theorem Matches.nest {prog : List Nat} {o₁ c₁ o₂ c₂ : Nat} (h₁ : Matches prog o₁ c₁) (h₂ : Matches prog o₂ c₂)
    (ho : o₁ < o₂) : c₁ < o₂ ∨ c₂ < c₁ := by
  by_contra hcross
  obtain ⟨hin, hafter⟩ := not_or.mp hcross
  have habove : excess prog o₁ < excess prog o₂ := h₁.excess_lt ho (by omega)
  have hend := h₁.excess_eq
  rcases Nat.eq_or_lt_of_le (Nat.not_lt.mp hafter) with hsame | hlt
  · have := h₂.excess_eq
    rw [← hsame] at this
    omega
  · have : excess prog o₂ < excess prog (c₁ + 1) := h₂.excess_lt (by omega) hlt
    omega

end Sys2Proof.Machine
end

section
/-! What the scan knows at an address, from the text alone, and with it the outcome of the whole scan (R61 to R66, R69). -/

namespace Sys2Proof.Machine

/-- The `[` at `o` still waits for its partner at address `a`, with `below` others under it on the stack: its height is
`below`, and from there to `a` the height has not come back to it. -/
structure Pending (prog : List Nat) (a o below : Nat) : Prop where
  lt : o < a
  opens : prog[o]? = some openCode
  height : excess prog o = below
  above : ∀ d, o < d → d ≤ a → (below : Int) < excess prog d

/-- What the scan has found when it comes to address `a`: no stray `]`, the open brackets on its stack waiting, the others
below `a` paired off in its table. -/
structure Scanned (prog : List Nat) (a : Nat) (stack : List Nat) (jt : JumpTable) : Prop where
  height : excess prog a = stack.length
  nonneg : ∀ n, n ≤ a → 0 ≤ excess prog n
  pending : ∀ o below, o :: below <:+ stack → Pending prog a o below.length
  paired : ∀ x, x < a → IsBracket prog x → x ∈ stack ∨ ∃ t, jt.entry x = some t
  unpaired : ∀ x, x ∈ stack → jt.entry x = none
  entries : ∀ x t, jt.entry x = some t → t < a ∧ jt.entry t = some x ∧ (Matches prog x t ∨ Matches prog t x)

theorem Scanned.start (prog : List Nat) : Scanned prog 0 [] [] where
  height := excess_zero prog
  nonneg := fun n hn => by rw [Nat.le_zero.mp hn, excess_zero]
  pending := fun _ _ h => nomatch List.suffix_nil.mp h
  paired := fun _ hx => absurd hx (Nat.not_lt_zero _)
  unpaired := fun _ h => absurd h List.not_mem_nil
  entries := fun _ _ h => nomatch h

theorem Pending.step {prog : List Nat} {a o below : Nat} (h : Pending prog a o below)
    (hnext : (below : Int) < excess prog (a + 1)) : Pending prog (a + 1) o below where
  lt := Nat.lt_succ_of_lt h.lt
  opens := h.opens
  height := h.height
  above := fun d hod hda => by
    rcases Nat.lt_or_eq_of_le hda with hlt | rfl
    · exact h.above d hod (Nat.le_of_lt_succ hlt)
    · exact hnext

/-- Two places of the stack hold two addresses, since their heights differ. -/
theorem Scanned.ne_of_mem_below {prog : List Nat} {a o x : Nat} {below : List Nat} {jt : JumpTable}
    (h : Scanned prog a (o :: below) jt) (hx : x ∈ below) : x ≠ o := by
  rintro rfl
  obtain ⟨front, rest, rfl⟩ := List.append_of_mem hx
  have htop := (h.pending x _ List.suffix_rfl).height
  have hlow := (h.pending x rest ⟨x :: front, rfl⟩).height
  simp only [List.length_append, List.length_cons] at htop
  omega

section
variable {prog : List Nat} {a c : Nat} {stack : List Nat} {jt : JumpTable} (h : Scanned prog a stack jt)
include h

theorem Scanned.lt_of_mem {x : Nat} (hx : x ∈ stack) : x < a := by
  obtain ⟨front, below, rfl⟩ := List.append_of_mem hx
  exact (h.pending x below ⟨front, rfl⟩).lt

/-- The table has no entry yet at the address that is scanned next. -/
theorem Scanned.entry_next : jt.entry a = none := by
  cases hentry : jt.entry a with
  | none => rfl
  | some t =>
    obtain ⟨-, hback, -⟩ := h.entries a t hentry
    exact absurd (h.entries t a hback).1 (Nat.lt_irrefl a)

theorem Scanned.nonneg_succ (hnext : 0 ≤ excess prog (a + 1)) : ∀ n, n ≤ a + 1 → 0 ≤ excess prog n := by
  intro n hn
  rcases Nat.lt_or_eq_of_le hn with hlt | rfl
  · exact h.nonneg n (Nat.le_of_lt_succ hlt)
  · exact hnext

/-- At a `[`, which is pushed (R62). -/
theorem Scanned.push (hcode : prog[a]? = some openCode) : Scanned prog (a + 1) (a :: stack) jt := by
  have hheight : excess prog (a + 1) = stack.length + 1 := by rw [excess_succ hcode, h.height, unitExcess_open]
  exact
    { height := hheight
      nonneg := h.nonneg_succ (by omega)
      pending := fun o below hsuf => by
        rcases List.suffix_cons_iff.mp hsuf with heq | hsuf
        · obtain ⟨rfl, rfl⟩ := List.cons.inj heq
          refine ⟨Nat.lt_succ_self o, hcode, h.height, fun d hod hda => ?_⟩
          rw [show d = o + 1 by omega, hheight]
          omega
        · have hfewer : below.length < stack.length := hsuf.length_le
          exact (h.pending o below hsuf).step (by omega)
      paired := fun x hx hb => by
        rcases Nat.lt_or_eq_of_le (Nat.le_of_lt_succ hx) with hlt | rfl
        · exact (h.paired x hlt hb).imp_left (List.mem_cons_of_mem a)
        · exact .inl List.mem_cons_self
      unpaired := fun x hx => by
        rcases List.mem_cons.mp hx with rfl | hx
        · exact h.entry_next
        · exact h.unpaired x hx
      entries := fun x t ht =>
        have ⟨hlt, hrest⟩ := h.entries x t ht
        ⟨Nat.lt_succ_of_lt hlt, hrest⟩ }

/-- At a code unit that is no bracket (R64). -/
theorem Scanned.pass (hcode : prog[a]? = some c) (ho : c ≠ openCode) (hc : c ≠ closeCode) :
    Scanned prog (a + 1) stack jt := by
  have hheight : excess prog (a + 1) = stack.length := by
    rw [excess_succ hcode, h.height, unitExcess_other ho hc, Int.add_zero]
  have hno : ¬ IsBracket prog a := by simp [IsBracket, hcode, ho, hc]
  exact
    { height := hheight
      nonneg := h.nonneg_succ (by omega)
      pending := fun o below hsuf => by
        have hfewer : below.length < stack.length := hsuf.length_le
        exact (h.pending o below hsuf).step (by omega)
      paired := fun x hx hb => by
        rcases Nat.lt_or_eq_of_le (Nat.le_of_lt_succ hx) with hlt | rfl
        · exact h.paired x hlt hb
        · exact absurd hb hno
      unpaired := h.unpaired
      entries := fun x t ht =>
        have ⟨hlt, hrest⟩ := h.entries x t ht
        ⟨Nat.lt_succ_of_lt hlt, hrest⟩ }

end

section
variable {prog : List Nat} {a o : Nat} {below : List Nat} {jt : JumpTable} (h : Scanned prog a (o :: below) jt)
  (hcode : prog[a]? = some closeCode)
include h hcode

theorem Scanned.excess_after_close : excess prog (a + 1) = below.length := by
  rw [excess_succ hcode, h.height, unitExcess_close, List.length_cons]
  omega

/-- The top of the stack holds the `[` that the text matches with the `]` met next. -/
theorem Scanned.matches_top : Matches prog o a := by
  have hpend := h.pending o below List.suffix_rfl
  have hend := h.excess_after_close hcode
  refine ⟨hpend.opens, hcode, hpend.lt, ?_, fun d hod hda hbal => ?_⟩
  · exact (balancedIn_iff (by have := hpend.lt; omega)).mpr (hpend.height.trans hend.symm)
  · have hheight := (balancedIn_iff (by omega)).mp hbal
    have := hpend.above (d + 1) (by omega) hda
    have := hpend.height
    omega

/-- At a `]`, which is paired with the top of the stack (R63). -/
theorem Scanned.pair : Scanned prog (a + 1) below (jt.link o a) := by
  have hheight := h.excess_after_close hcode
  have hmatch := h.matches_top hcode
  have hoa : o < a := hmatch.lt
  exact
    { height := hheight
      nonneg := h.nonneg_succ (by omega)
      pending := fun p low hsuf => by
        have hfewer : low.length < below.length := hsuf.length_le
        exact (h.pending p low (hsuf.trans (List.suffix_cons o below))).step (by omega)
      paired := fun x hx hb => by
        by_cases hxa : x = a
        · exact .inr ⟨o, by rw [hxa, JumpTable.entry_link_close]⟩
        by_cases hxo : x = o
        · exact .inr ⟨a, by rw [hxo, JumpTable.entry_link_open]⟩
        · rw [JumpTable.entry_link_other _ hxo hxa]
          refine (h.paired x (by omega) hb).imp_left fun hmem => ?_
          exact (List.mem_cons.mp hmem).resolve_left hxo
      unpaired := fun x hx => by
        have hxa : x ≠ a := (h.lt_of_mem (List.mem_cons_of_mem o hx)).ne
        rw [JumpTable.entry_link_other _ (h.ne_of_mem_below hx) hxa]
        exact h.unpaired x (List.mem_cons_of_mem o hx)
      entries := fun x t ht => by
        rw [JumpTable.entry_link] at ht
        split_ifs at ht with hxa hxo
        · cases ht
          rw [hxa]
          exact ⟨by omega, jt.entry_link_open o a, .inr hmatch⟩
        · cases ht
          rw [hxo]
          exact ⟨by omega, jt.entry_link_close o a, .inl hmatch⟩
        · obtain ⟨hlt, hback, hpair⟩ := h.entries x t ht
          have hto : t ≠ o := by
            rintro rfl
            rw [h.unpaired t List.mem_cons_self] at hback
            cases hback
          rw [JumpTable.entry_link_other _ hto hlt.ne]
          exact ⟨Nat.lt_succ_of_lt hlt, hback, hpair⟩ }

end

/-- One address scanned. -/
theorem Scanned.unit {prog : List Nat} {a c : Nat} {stack stack' : List Nat} {jt jt' : JumpTable}
    (h : Scanned prog a stack jt) (hcode : prog[a]? = some c) (hu : scanUnit a c stack jt = some (stack', jt')) :
    Scanned prog (a + 1) stack' jt' := by
  rcases scanUnit_cases hu with ⟨rfl, rfl, rfl⟩ | ⟨rfl, o, rfl, rfl⟩ | ⟨ho, hc, rfl, rfl⟩
  · exact h.push hcode
  · exact h.pair hcode
  · exact h.pass hcode ho hc

/-- A `]` that meets an empty stack is one too many in the text (R63, R69). -/
theorem Scanned.strayClose {prog : List Nat} {a : Nat} {jt : JumpTable} (h : Scanned prog a [] jt)
    (hcode : prog[a]? = some closeCode) : StrayClose prog := by
  have hlen : a < prog.length := (List.getElem?_eq_some_iff.mp hcode).1
  refine strayClose_iff.mpr ⟨a + 1, hlen, ?_⟩
  rw [excess_succ hcode, h.height, unitExcess_close, List.length_nil]
  decide

/-- The three outcomes of a scan, each with what it has found. -/
inductive Verdict (prog : List Nat) : Except FaultCode JumpTable → Prop where
  | accepted (jt : JumpTable) (h : Scanned prog prog.length [] jt) : Verdict prog (.ok jt)
  | stray (h : StrayClose prog) : Verdict prog (.error .syntaxClose)
  | unclosed (o : Nat) (stack : List Nat) (jt : JumpTable) (h : Scanned prog prog.length (o :: stack) jt) :
      Verdict prog (.error .syntaxOpen)

theorem Scanned.verdict {prog rest : List Nat} {a : Nat} {stack : List Nat} {jt : JumpTable}
    (h : Scanned prog a stack jt) (hle : a ≤ prog.length) (hrest : prog.drop a = rest) :
    Verdict prog (scanFrom a stack jt rest) := by
  induction rest generalizing a stack jt with
  | nil =>
    have ha : a = prog.length := Nat.le_antisymm hle (List.drop_eq_nil_iff.mp hrest)
    subst ha
    cases stack with
    | nil => exact .accepted jt h
    | cons o below => exact .unclosed o below jt h
  | cons c rest ih =>
    have hcode : prog[a]? = some c := by rw [← List.head?_drop, hrest, List.head?_cons]
    have hlt : a < prog.length := (List.getElem?_eq_some_iff.mp hcode).1
    have hrest' : prog.drop (a + 1) = rest := by rw [← List.tail_drop, hrest, List.tail_cons]
    cases hu : scanUnit a c stack jt with
    | some r =>
      obtain ⟨stack', jt'⟩ := r
      rw [scanFrom_cons_some hu]
      exact ih (h.unit hcode hu) hlt hrest'
    | none =>
      obtain ⟨rfl, rfl⟩ := scanUnit_none hu
      rw [scanFrom_cons_none hu]
      exact .stray (h.strayClose hcode)

theorem buildJump_verdict (prog : List Nat) : Verdict prog (buildJump prog) :=
  (Scanned.start prog).verdict (Nat.zero_le _) prog.drop_zero

/-! ### The outcome from the text alone -/

theorem Scanned.not_strayClose {prog stack : List Nat} {jt : JumpTable} (h : Scanned prog prog.length stack jt) :
    ¬ StrayClose prog := by
  rw [strayClose_iff]
  rintro ⟨n, hn, hneg⟩
  have := h.nonneg n hn
  omega

theorem Scanned.balanced_iff {prog stack : List Nat} {jt : JumpTable} (h : Scanned prog prog.length stack jt) :
    BalancedIn prog 0 prog.length ↔ stack = [] := by
  rw [balancedIn_iff (Nat.zero_le _), excess_zero, h.height, ← List.length_eq_zero_iff]
  omega

/-- Settles O38: each outcome comes with its own one of the three conditions on the text, and they exclude each other. -/
theorem scanVerdict : Obligations.ScanVerdict := by
  intro prog
  unfold BalancedProgram
  have hverdict := buildJump_verdict prog
  generalize buildJump prog = result at hverdict ⊢
  cases hverdict with
  | accepted jt h => simp [h.not_strayClose, h.balanced_iff]
  | stray h => simp [h]
  | unclosed o stack jt h => simp [h.not_strayClose, h.balanced_iff]

theorem Verdict.scanned {prog : List Nat} {jt : JumpTable} (h : Verdict prog (.ok jt)) :
    Scanned prog prog.length [] jt := by
  cases h with
  | accepted _ hscan => exact hscan

theorem scanned_of_buildJump {prog : List Nat} {jt : JumpTable} (h : buildJump prog = .ok jt) :
    Scanned prog prog.length [] jt :=
  Verdict.scanned (h ▸ buildJump_verdict prog)

/-- Settles O36: at the end of an accepted program nothing waits on the stack, so every bracket has its entry. -/
theorem jumpTableIsComplete : Obligations.JumpTableIsComplete := by
  intro prog jt h
  have hscan := scanned_of_buildJump h
  have hmatch : ∀ a t, jt.entry a = some t → Matches prog a t ∨ Matches prog t a := fun a t ht =>
    (hscan.entries a t ht).2.2
  refine ⟨fun a => ⟨?_, fun hb => ?_⟩, fun a t ht => (hscan.entries a t ht).2.1, hmatch⟩
  · rintro ⟨t, ht⟩
    exact (hmatch a t ht).imp Matches.opens Matches.closes
  · have hlen : a < prog.length := by
      rcases hb with hb | hb <;> exact (List.getElem?_eq_some_iff.mp hb).1
    exact (hscan.paired a hlen hb).resolve_left List.not_mem_nil

/-! ### Entries of a complete table -/

theorem CompleteTable.matches_of_open {prog : List Nat} {jt : JumpTable} (h : CompleteTable prog jt) {o c : Nat}
    (hopen : prog[o]? = some openCode) (hentry : jt.entry o = some c) : Matches prog o c :=
  (h.matching o c hentry).resolve_right fun hm => not_close_of_open hopen hm.closes

theorem CompleteTable.matches_of_close {prog : List Nat} {jt : JumpTable} (h : CompleteTable prog jt) {o c : Nat}
    (hclose : prog[c]? = some closeCode) (hentry : jt.entry c = some o) : Matches prog o c :=
  (h.matching c o hentry).resolve_left fun hm => not_close_of_open hm.opens hclose

theorem CompleteTable.entry_open {prog : List Nat} {jt : JumpTable} (h : CompleteTable prog jt) {o c : Nat}
    (hm : Matches prog o c) : jt.entry o = some c := by
  obtain ⟨d, hd⟩ := (h.domain o).mpr (.inl hm.opens)
  rw [hd, hm.unique (h.matches_of_open hm.opens hd)]

theorem CompleteTable.entry_close {prog : List Nat} {jt : JumpTable} (h : CompleteTable prog jt) {o c : Nat}
    (hm : Matches prog o c) : jt.entry c = some o :=
  h.symmetric o c (h.entry_open hm)

/-- Settles O37: the entries join matching brackets, and those nest. -/
theorem bracketPairsNest : Obligations.BracketPairsNest := by
  intro prog jt o₁ c₁ o₂ c₂ h ho₁ ho₂ he₁ he₂ hlt
  have hcomplete : CompleteTable prog jt := jumpTableIsComplete prog jt h
  exact (hcomplete.matches_of_open ho₁ he₁).nest (hcomplete.matches_of_open ho₂ he₂) hlt

end Sys2Proof.Machine
end

section
/-! All that one step can answer, in one relation, and which instruction it executes (R75, R106). -/

namespace Sys2Proof.Machine

/-- The next states of one step, one constructor for each of its ways; `step_eq_next_iff` ties it to `step`. -/
inductive Steps (s : State) : State → Prop where
  | asserted (p : Params) (gone : Bool) (rest : List RstPin) (hrst : s.rst = .asserted p gone :: rest) :
      Steps s (assertedStep s p)
  | scan (hr : s.rstAsserted = false) (hp : s.phase = .scan) : Steps s (scanStep s.tick)
  | halt (hr : s.rstAsserted = false) (hp : s.phase = .run) (hfetch : s.fetch = none) :
      Steps s { s.tick with phase := .halted }
  | exec (c : Nat) (t : State) (hr : s.rstAsserted = false) (hp : s.phase = .run) (hfetch : s.fetch = some c)
      (hdone : Completes s.tick (decode c) t) : Steps s t
  | hold (hr : s.rstAsserted = false) (hp : s.phase = .halted ∨ s.phase = .faulted) : Steps s s.tick

theorem steps_of_step {s t : State} (h : step s = .next t) : Steps s t := by
  rcases step_cases h with ⟨p, gone, rest, hrst, rfl⟩ | ⟨hr, ⟨hp, rfl⟩ | ⟨hp, hfetch, rfl⟩ | ⟨hp, c, hfetch, hexec⟩ |
    ⟨hp, rfl⟩⟩
  · exact .asserted p gone rest hrst
  · exact .scan hr hp
  · exact .halt hr hp hfetch
  · exact .exec c t hr hp hfetch (completes_of_exec hexec)
  · exact .hold hr hp

theorem step_of_fetch {s : State} {c : Nat} (hr : s.rstAsserted = false) (hp : s.phase = .run)
    (hfetch : s.fetch = some c) : step s = exec (decode c) s.tick := by
  rw [step_of_run hr hp, runStep_fetched (s.tick_fetch.trans hfetch)]

theorem step_of_terminal {s : State} (hr : s.rstAsserted = false) (hp : s.phase = .halted ∨ s.phase = .faulted) :
    step s = .next s.tick := by
  rw [step_of_released hr, releasedStep_terminal (s := s.tick) hp]

theorem step_of_steps {s t : State} (h : Steps s t) : step s = .next t := by
  cases h with
  | asserted p gone rest hrst => exact step_of_asserted hrst
  | scan hr hp => exact step_of_scan hr hp
  | halt hr hp hfetch => exact step_of_run_past_end hr hp (fetch_eq_none.mp hfetch)
  | exec c t hr hp hfetch hdone => exact (step_of_fetch hr hp hfetch).trans (exec_of_completes hdone)
  | hold hr hp => exact step_of_terminal hr hp

/-- All that a step can answer as a next state. -/
theorem step_eq_next_iff {s t : State} : step s = .next t ↔ Steps s t := ⟨steps_of_step, step_of_steps⟩

/-! ### The instruction a step executes -/

theorem executing_of_not_run {s : State} (hp : s.phase ≠ .run) : s.executing = none := by
  unfold State.executing
  split
  · next h => exact absurd h hp
  · rfl

theorem executing_of_run {s : State} (hp : s.phase = .run) : s.executing = s.fetch.map decode := by
  unfold State.executing
  rw [hp]

theorem executing_of_fetch {s : State} {c : Nat} (hp : s.phase = .run) (hfetch : s.fetch = some c) :
    s.executing = some (decode c) := by
  rw [executing_of_run hp, hfetch, Option.map_some]

theorem executing_of_fetch_none {s : State} (hp : s.phase = .run) (hfetch : s.fetch = none) : s.executing = none := by
  rw [executing_of_run hp, hfetch, Option.map_none]

theorem executing_of_terminal {s : State} (hp : s.phase = .halted ∨ s.phase = .faulted) : s.executing = none :=
  executing_of_not_run (by rcases hp with hp | hp <;> rw [hp] <;> decide)

/-! ### The statements -/

/-- Settles O6: the fetch sees nothing of the level of `rst` that goes by. -/
theorem stepRunsFetchedInstruction : Obligations.StepRunsFetchedInstruction :=
  fun _ _ hr hp hfetch => step_of_fetch hr hp hfetch

/-- Settles O9: in the two terminal phases a step is a `tick`. -/
theorem terminalPhasesHold : Obligations.TerminalPhasesHold :=
  fun _ hr hp => step_of_terminal hr hp

/-- With `rst` asserted the environment's account decides about a byte in flight (R141). -/
theorem inReady_of_asserted {s : State} {p : Params} {gone : Bool} {rest : List RstPin}
    (h : s.rst = .asserted p gone :: rest) : s.inReady = (s.byteOffered && gone) := by
  unfold State.inReady
  rw [h]

/-- Settles O2: an asserted step answers `resetTo`, whose fields are those of `State.reset`. -/
theorem rstGivesResetState : Obligations.RstGivesResetState := by
  intro s p gone rest hrst
  refine ⟨assertedStep s p, step_of_asserted hrst, rfl, rfl, rfl, rfl, fun _ => rfl, fun _ => rfl, rfl, rfl, rfl, rfl,
    rfl, ?_, rfl, ?_⟩
  · exact congrArg List.tail hrst
  · rw [← inReady_of_asserted hrst]
    rfl

/-- Settles O1: the tape and the table of `State.reset` list nothing. -/
theorem stateResetValues : Obligations.StateResetValues :=
  ⟨rfl, rfl, rfl, rfl, Memory.read_nil, JumpTable.entry_nil, rfl, rfl, rfl, rfl⟩

end Sys2Proof.Machine
end

section
/-! The invariant of every reachable state (R25): it holds after reset, every step keeps it, and under it every step answers
a next state. -/

namespace Sys2Proof.Machine

/-! ### Where the invariant holds to begin with -/

/-- The invariant says nothing of the two streams and of `rst`. -/
theorem Inv.of_other_env {s : State} (h : Inv s) (i : InStream) (o : List Byte) (r : List RstPin) :
    Inv { s with input := i, output := o, rst := r } := { h with }

theorem Inv.tick {s : State} (h : Inv s) : Inv s.tick := h.of_other_env s.input s.output s.rst.tail

theorem inv_launch (p : Params) (i : InStream) : Inv (State.launch p i) where
  ptr_lt := p.tapeLen_pos
  pc_le := Nat.zero_le _
  tape_wf := Memory.wf_nil
  tape_lt := nofun
  jt_rising := List.Pairwise.nil
  fault_iff := by simp
  scan_untouched := fun _ => ⟨rfl, rfl, rfl⟩
  scan_bound := fun _ => ⟨Nat.zero_le _, Nat.le_refl _⟩
  scan_stack := fun _ => nofun
  scan_ahead := fun _ => rfl
  table := by simp
  halted_pc := nofun
  bad_brackets := by simp
  end_of_input := nofun

/-- Settles O40: reset and launch both have nothing scanned and nothing stored. -/
theorem invAtReset : Obligations.InvAtReset :=
  ⟨inv_launch State.reset.params State.reset.input, inv_launch⟩

/-! ### What an accepted program's table gives -/

theorem scanFrom_rising {rest : List Nat} {a : Nat} {stack : List Nat} {jt jt' : JumpTable}
    (h : scanFrom a stack jt rest = .ok jt') (hj : Sparse.Rising jt) : Sparse.Rising jt' := by
  induction rest generalizing a stack jt with
  | nil =>
    rw [scanFrom_nil] at h
    split_ifs at h
    cases h
    exact hj
  | cons c rest ih =>
    cases hu : scanUnit a c stack jt with
    | some r =>
      rw [scanFrom_cons_some hu] at h
      exact ih h (scanUnit_rising hu hj)
    | none => rw [scanFrom_cons_none hu] at h; cases h

theorem rising_of_buildJump {prog : List Nat} {jt : JumpTable} (h : buildJump prog = .ok jt) : Sparse.Rising jt :=
  scanFrom_rising h List.Pairwise.nil

theorem Inv.completeTable {s : State} (h : Inv s) (hp : s.phase = .run) : CompleteTable s.params.prog s.jt :=
  jumpTableIsComplete _ _ (h.table (.inl hp))

theorem CompleteTable.entry_lt {prog : List Nat} {jt : JumpTable} (h : CompleteTable prog jt) {a t : Nat}
    (hentry : jt.entry a = some t) : t < prog.length := by
  have hb : IsBracket prog t := (h.domain t).mp ⟨a, h.symmetric a t hentry⟩
  rcases hb with hb | hb <;> exact (List.getElem?_eq_some_iff.mp hb).1

/-- A state of phase RUN meets the invariant by its registers, its tape and its table. -/
theorem inv_of_run {s : State} (hp : s.phase = .run) (hf : s.fault = .none) (hptr : s.ptr < s.params.tapeLen)
    (hpc : s.pc ≤ s.params.progLen) (hwf : Memory.wf s.tape) (hlt : ∀ e ∈ s.tape, e.1 < s.params.tapeLen)
    (hjt : buildJump s.params.prog = .ok s.jt) : Inv s where
  ptr_lt := hptr
  pc_le := hpc
  tape_wf := hwf
  tape_lt := hlt
  jt_rising := rising_of_buildJump hjt
  fault_iff := by simp [hp, hf]
  scan_untouched := by simp [hp]
  scan_bound := by simp [hp]
  scan_stack := by simp [hp]
  scan_ahead := by simp [hp]
  table := fun _ => hjt
  halted_pc := by simp [hp]
  bad_brackets := by simp [hf]
  end_of_input := by simp [hf]

theorem Inv.fault_eq_none {s : State} (h : Inv s) (hp : s.phase ≠ .faulted) : s.fault = .none := by
  by_contra hf
  exact hp (h.fault_iff.mp hf)

/-! ### Steps of the scan -/

section
variable {s : State} (h : Inv s) (hp : s.phase = .scan)
include h hp

/-- A bracket fault in a reachable state of phase SCAN. -/
theorem Inv.raise_bracket {code : FaultCode} (hcode : code = .syntaxClose ∨ code = .syntaxOpen)
    (hbad : buildJump s.params.prog = .error code) : Inv (s.raise code) := by
  have hnone : code ≠ .none := by rintro rfl; simp at hcode
  have heof : code ≠ .ioEof := by rintro rfl; simp at hcode
  obtain ⟨hpc, hptr, htape⟩ := h.scan_untouched hp
  exact
    { h with
      fault_iff := by simp [hnone]
      scan_untouched := nofun
      scan_bound := nofun
      scan_stack := nofun
      scan_ahead := nofun
      table := by simp
      halted_pc := nofun
      bad_brackets := fun _ => ⟨hpc, hptr, htape, hbad⟩
      end_of_input := fun he => absurd he heof }

theorem Inv.scan_unit {c : Nat} {stack : List Nat} {jt : JumpTable} (hc : s.codeAt s.scanI = some c)
    (hu : scanUnit s.scanI c s.stack s.jt = some (stack, jt)) :
    Inv { s with stack := stack, jt := jt, scanI := s.scanI + 1 } := by
  have hlt : s.scanI < s.params.progLen := State.lt_progLen_of_codeAt hc
  obtain ⟨-, hlen⟩ := h.scan_bound hp
  have hmem : ∀ o ∈ stack, o = s.scanI ∧ c = openCode ∨ o ∈ s.stack := by
    intro o ho
    rcases scanUnit_cases hu with ⟨hopen, rfl, -⟩ | ⟨-, top, hstack, -⟩ | ⟨-, -, rfl, -⟩
    · exact (List.mem_cons.mp ho).imp_left fun heq => ⟨heq, hopen⟩
    · exact .inr (hstack ▸ List.mem_cons_of_mem top ho)
    · exact .inr ho
  have hlen' : stack.length ≤ s.scanI + 1 := by
    rcases scanUnit_cases hu with ⟨-, rfl, -⟩ | ⟨-, top, hstack, -⟩ | ⟨-, -, rfl, -⟩
    · simpa using hlen
    · rw [hstack, List.length_cons] at hlen
      omega
    · omega
  have hdrop : s.params.prog.drop s.scanI = c :: s.params.prog.drop (s.scanI + 1) := by
    rw [List.drop_eq_getElem_cons hlt]
    congr 1
    exact (List.getElem?_eq_some_iff.mp hc).2
  exact
    { h with
      jt_rising := scanUnit_rising hu h.jt_rising
      scan_bound := fun _ => ⟨hlt, hlen'⟩
      scan_stack := fun _ o ho => by
        rcases hmem o ho with ⟨rfl, rfl⟩ | hold
        · exact ⟨Nat.lt_succ_self _, hc⟩
        · obtain ⟨hless, hopen⟩ := h.scan_stack hp o hold
          exact ⟨Nat.lt_succ_of_lt hless, hopen⟩
      scan_ahead := fun _ => by rw [← h.scan_ahead hp, hdrop, scanFrom_cons_some hu]
      table := by simp [hp]
      end_of_input := by simp [h.fault_eq_none (by simp [hp])] }

/-- At the end of the program the scan's own check is what is left of `buildJump` (R65). -/
theorem Inv.buildJump_of_end (hc : s.codeAt s.scanI = none) :
    buildJump s.params.prog = if s.stack.isEmpty then .ok s.jt else .error .syntaxOpen := by
  rw [← h.scan_ahead hp, List.drop_eq_nil_of_le (State.codeAt_eq_none_iff.mp hc), scanFrom_nil]

theorem Inv.scanStep : Inv (scanStep s) := by
  rcases scanStep_cases s with ⟨c, stack, jt, hc, hu, ht⟩ | ⟨hc, hs, ht⟩ | ⟨hc, hs, ht⟩ | ⟨hc, hs, ht⟩ <;> rw [ht]
  · exact h.scan_unit hp hc hu
  · refine h.raise_bracket hp (.inl rfl) ?_
    have hdrop := List.drop_eq_getElem_cons (State.lt_progLen_of_codeAt hc)
    rw [(List.getElem?_eq_some_iff.mp hc).2] at hdrop
    rw [← h.scan_ahead hp, hdrop, hs]
    exact scanFrom_cons_none (scanUnit_close_empty _ _) _
  · have hjt := h.buildJump_of_end hp hc
    rw [hs] at hjt
    exact inv_of_run rfl (h.fault_eq_none (by simp [hp])) h.ptr_lt h.pc_le h.tape_wf h.tape_lt hjt
  · refine h.raise_bracket hp (.inr rfl) ?_
    rw [h.buildJump_of_end hp hc, if_neg (by simpa using hs)]

end

/-! ### Steps of phase RUN -/

theorem Inv.halt {s : State} (h : Inv s) (hp : s.phase = .run) (hfetch : s.fetch = none) :
    Inv { s with phase := .halted } := by
  have hpc : s.pc = s.params.progLen := Nat.le_antisymm h.pc_le (fetch_eq_none.mp hfetch)
  exact
    { h with
      fault_iff := by simp [h.fault_eq_none (by simp [hp])]
      scan_untouched := nofun
      scan_bound := nofun
      scan_stack := nofun
      scan_ahead := nofun
      table := fun _ => h.table (.inl hp)
      halted_pc := fun _ => hpc }

/-- `IO_EOF` in a reachable state of phase RUN that stands at an IN. -/
theorem Inv.raise_ioEof {s : State} (h : Inv s) (hp : s.phase = .run) (hfetch : s.fetch = some 0x2C) :
    Inv (s.raise .ioEof) :=
  { h with
    fault_iff := by simp
    scan_untouched := nofun
    scan_bound := nofun
    scan_stack := nofun
    scan_ahead := nofun
    table := by simp
    halted_pc := nofun
    bad_brackets := by simp
    end_of_input := fun _ => ⟨h.table (.inl hp), hfetch⟩ }

section
variable {i : Instr} {s t : State} (hdone : Completes s i t)
include hdone

theorem Completes.ptr_lt (h : s.ptr < s.params.tapeLen) : t.ptr < s.params.tapeLen := by
  cases hdone with
  | right => exact rightOf_lt s.params.tapeLen_pos s.ptr
  | left => exact leftOf_lt h
  | inc | dec | output | inByte | inEof | inNotYet | openTaken | openPassed | closeTaken | closePassed | nop => exact h

/-- The tape is as it was, or has one byte more stored in the current cell, which exists. -/
theorem Completes.tape :
    t.tape = s.tape ∨ s.ptr < s.params.tapeLen ∧ ∃ v, t.tape = s.tape.write s.ptr v := by
  cases hdone with
  | inc hptr | dec hptr => exact .inr ⟨hptr, _, rfl⟩
  | inByte b _ hptr => exact .inr ⟨hptr, b, rfl⟩
  | right | left | output | inEof | inNotYet | openTaken | openPassed | closeTaken | closePassed | nop => exact .inl rfl

theorem Completes.tape_wf (h : Memory.wf s.tape) : Memory.wf t.tape := by
  rcases hdone.tape with heq | ⟨-, v, heq⟩ <;> rw [heq]
  · exact h
  · exact Memory.wf_write h s.ptr v

theorem Completes.tape_lt (h : ∀ e ∈ s.tape, e.1 < s.params.tapeLen) : ∀ e ∈ t.tape, e.1 < s.params.tapeLen := by
  rcases hdone.tape with heq | ⟨hptr, v, heq⟩ <;> rw [heq]
  · exact h
  · intro e he
    rcases Memory.mem_write he with hidx | hold
    · rw [hidx]; exact hptr
    · exact h e hold

theorem Completes.pc_le (h : CompleteTable s.params.prog s.jt) (hpc : s.pc < s.params.progLen) :
    t.pc ≤ s.params.progLen := by
  cases hdone with
  | openTaken target _ _ hentry | closeTaken target _ _ hentry => exact h.entry_lt hentry
  | inEof | inNotYet => exact hpc.le
  | right | left | inc | dec | output | inByte | openPassed | closePassed | nop => exact hpc

end

theorem Inv.exec {s t : State} {c : Nat} (h : Inv s) (hp : s.phase = .run) (hfetch : s.fetch = some c)
    (hdone : Completes s (decode c) t) : Inv t := by
  rcases hdone.phase_fault with ⟨hphase, hfault⟩ | ⟨hinput, -, rfl⟩
  · obtain ⟨hjt, -, -, hparams, -⟩ := hdone.frame
    refine inv_of_run (hphase.trans hp) (hfault.trans (h.fault_eq_none (by simp [hp]))) ?_ ?_
      (hdone.tape_wf h.tape_wf) ?_ ?_ <;> rw [hparams]
    · exact hdone.ptr_lt h.ptr_lt
    · exact hdone.pc_le (h.completeTable hp) (State.lt_progLen_of_codeAt hfetch)
    · exact hdone.tape_lt h.tape_lt
    · rw [hjt]; exact h.table (.inl hp)
  · have hcode : c = 0x2C := (decode_eq_iff (i := .input) rfl).mp hinput
    exact h.raise_ioEof hp (hcode ▸ hfetch)

/-! ### The statements -/

/-- Settles O41: one lemma for each way a step answers a next state. -/
theorem stepKeepsInv : Obligations.StepKeepsInv := by
  intro s t h hstep
  cases steps_of_step hstep with
  | asserted p => exact (inv_launch p s.input).of_other_env _ s.output s.rst.tail
  | scan _ hp => exact h.tick.scanStep hp
  | halt _ hp hfetch => exact h.tick.halt hp hfetch
  | exec c _ _ hp hfetch hdone => exact h.tick.exec hp hfetch hdone
  | hold => exact h.tick

/-- A bracket of the program has its entry, and every other instruction needs none. -/
theorem Inv.completes {s : State} {c : Nat} (h : Inv s) (hp : s.phase = .run) (hfetch : s.fetch = some c) :
    ∃ t, Completes s (decode c) t := by
  have hptr := h.ptr_lt
  have htable := h.completeTable hp
  cases hd : decode c with
  | right => exact ⟨_, .right⟩
  | left => exact ⟨_, .left⟩
  | inc => exact ⟨_, .inc hptr⟩
  | dec => exact ⟨_, .dec hptr⟩
  | output => exact ⟨_, .output hptr⟩
  | input =>
    cases hpoll : s.inPoll with
    | byte b => exact ⟨_, .inByte b hpoll hptr⟩
    | eof => exact ⟨_, .inEof hpoll⟩
    | notYet => exact ⟨_, .inNotYet hpoll⟩
  | openLoop =>
    have hcode : c = openCode := (decode_eq_iff (i := .openLoop) rfl).mp hd
    obtain ⟨target, hentry⟩ := (htable.domain s.pc).mpr (.inl (hcode ▸ hfetch))
    by_cases hcell : s.cellAt s.ptr = 0
    · exact ⟨_, .openTaken target hptr hcell hentry⟩
    · exact ⟨_, .openPassed hptr hcell⟩
  | closeLoop =>
    have hcode : c = closeCode := (decode_eq_iff (i := .closeLoop) rfl).mp hd
    obtain ⟨target, hentry⟩ := (htable.domain s.pc).mpr (.inr (hcode ▸ hfetch))
    by_cases hcell : s.cellAt s.ptr = 0
    · exact ⟨_, .closePassed hptr hcell⟩
    · exact ⟨_, .closeTaken target hptr hcell hentry⟩
  | nop d => exact ⟨_, .nop d⟩

/-- Settles O42: with `rst` released only phase RUN could stop, and there `Inv.completes` answers. -/
theorem invStatesAlwaysStep : Obligations.InvStatesAlwaysStep := by
  intro s h
  cases hr : s.rstAsserted with
  | true =>
    obtain ⟨p, gone, rest, hrst⟩ := rstAsserted_iff.mp hr
    exact ⟨_, step_of_asserted hrst⟩
  | false =>
    cases hp : s.phase with
    | scan => exact ⟨_, step_of_scan hr hp⟩
    | run =>
      cases hfetch : s.fetch with
      | none => exact ⟨_, step_of_steps (.halt hr hp hfetch)⟩
      | some c =>
        obtain ⟨t, ht⟩ := h.tick.completes hp hfetch
        exact ⟨t, step_of_steps (.exec c t hr hp hfetch ht)⟩
    | halted => exact ⟨_, step_of_terminal hr (.inl hp)⟩
    | faulted => exact ⟨_, step_of_terminal hr (.inr hp)⟩

/-- Settles O19: the table's entry at a bracket is the bracket that matches it in the text. -/
theorem branchesGoToMatchingBracket : Obligations.BranchesGoToMatchingBracket := by
  intro s o c h hp hm
  have htable := h.completeTable hp
  refine ⟨fun hpc hcell => ?_, fun hpc hcell => ?_⟩
  · exact exec_of_completes (.openTaken c h.ptr_lt hcell (hpc ▸ htable.entry_open hm))
  · exact exec_of_completes (.closeTaken o h.ptr_lt hcell (hpc ▸ htable.entry_close hm))

/-- Settles O43: a taken branch goes past the matching bracket, which is inside the program; the others go past `pc`. -/
theorem branchesLandInside : Obligations.BranchesLandInside := by
  intro s t h hp
  have htable := h.completeTable hp
  refine ⟨fun hopen hexec => ?_, fun hclose hexec => ?_⟩
  · have hpc : s.pc < s.params.progLen := State.lt_progLen_of_codeAt hopen
    have hdone := completes_of_exec hexec
    refine ⟨?_, hdone.pc_le htable hpc⟩
    cases hdone with
    | openTaken target _ _ hentry => exact Nat.lt_succ_of_lt (htable.matches_of_open hopen hentry).lt
    | openPassed => exact Nat.lt_succ_self s.pc
  · have hpc : s.pc < s.params.progLen := State.lt_progLen_of_codeAt hclose
    have hdone := completes_of_exec hexec
    refine ⟨?_, hdone.pc_le htable hpc, fun hcell => ?_⟩
    · cases hdone with
      | closeTaken target => exact Nat.le_add_left 1 target
      | closePassed => exact Nat.le_add_left 1 s.pc
    · cases hdone with
      | closeTaken target _ _ hentry => exact (htable.matches_of_close hclose hentry).lt
      | closePassed _ hzero => exact absurd hzero hcell

/-! ### Register widths -/

theorem lt_two_pow_widthFor (n : Nat) : n < 2 ^ widthFor n := Nat.lt_log2_self

theorem widthFor_le {n w : Nat} (hw : 1 ≤ w) (h : n < 2 ^ w) : widthFor n ≤ w := by
  unfold widthFor
  by_cases hn : n = 0
  · rw [hn, Nat.log2_zero]; exact hw
  · exact (Nat.log2_lt hn).mpr h

/-- Settles O44: `widthFor` is the least width of its number, and `TAPE_LEN` is one more than the last index. -/
theorem registersFitTheirWidths : Obligations.RegistersFitTheirWidths := by
  have htape : ∀ p : Params, p.tapeLen ≤ 2 ^ p.ptrW := fun p => Nat.le_of_pred_lt (lt_two_pow_widthFor _)
  have hprog : ∀ p : Params, p.progLen < 2 ^ p.pcW := fun p => lt_two_pow_widthFor _
  refine ⟨fun p => ⟨⟨Nat.le_add_left 1 _, htape p, fun w hw hfit => ?_⟩,
    ⟨Nat.le_add_left 1 _, hprog p, fun w hw hfit => widthFor_le hw hfit⟩⟩, fun s h => ⟨?_, ?_⟩⟩
  · have := p.tapeLen_pos
    exact widthFor_le hw (by omega)
  · exact lt_of_lt_of_le h.ptr_lt (htape s.params)
  · exact lt_of_le_of_lt h.pc_le (hprog s.params)

/-! ### The loader -/

theorem carrierProgram_at (c : Nat) : (carrierProgram c)[carrierAddr c]? = some c := by
  by_cases ho : c = openCode
  · subst ho; rfl
  by_cases hc : c = closeCode
  · subst hc; rfl
  · simp [carrierProgram, carrierAddr, ho, hc]

theorem buildJump_carrierProgram (c : Nat) : buildJump (carrierProgram c) = .ok (carrierTable c) := by
  by_cases hb : c = openCode ∨ c = closeCode
  · rw [carrierProgram, carrierTable, if_pos hb, if_pos hb]
    rfl
  · obtain ⟨ho, hc⟩ := not_or.mp hb
    rw [carrierProgram, carrierTable, if_neg hb, if_neg hb, buildJump, scanFrom_cons_some (scanUnit_other ho hc [] [])]
    rfl

theorem withFetchWord_fetch (s : State) (nbits w : Nat) :
    (s.withFetchWord nbits w).fetch = some (tableCodeUnit s.params.charW nbits w) :=
  carrierProgram_at _

theorem tableCodeUnit_of_lt {charW nbits w : Nat} (hn : w < 2 ^ nbits) (hc : w < 2 ^ charW) :
    tableCodeUnit charW nbits w = w := by
  rw [tableCodeUnit, Nat.mod_eq_of_lt hn, Nat.mod_eq_of_lt hc]

/-- A word of few enough table bits fits whole in a code unit. -/
theorem tableCodeUnit_of_le {charW nbits : Nat} (h : nbits ≤ charW) (w : Nat) :
    tableCodeUnit charW nbits w = w % 2 ^ nbits := by
  have hlt : w % 2 ^ nbits < 2 ^ nbits := Nat.mod_lt _ (Nat.two_pow_pos nbits)
  exact Nat.mod_eq_of_lt (lt_of_lt_of_le hlt (Nat.pow_le_pow_right (by decide) h))

theorem step_withFetchWord (s : State) (nbits w : Nat) :
    step (s.withFetchWord nbits w) =
      exec (decode (tableCodeUnit s.params.charW nbits w)) (s.withFetchWord nbits w) :=
  step_of_fetch (s := s.withFetchWord nbits w) rfl rfl (withFetchWord_fetch s nbits w)

theorem Inv.withFetchWord {s : State} (h : Inv s) (nbits w : Nat) : Inv (s.withFetchWord nbits w) := by
  have hpc : (s.withFetchWord nbits w).pc < (s.withFetchWord nbits w).params.progLen :=
    State.lt_progLen_of_codeAt (withFetchWord_fetch s nbits w)
  exact inv_of_run rfl rfl h.ptr_lt hpc.le h.tape_wf h.tape_lt (buildJump_carrierProgram _)

/-- Settles O7: the carrier program holds the code unit at `pc` and passes its scan. -/
theorem loadedWordRuns : Obligations.LoadedWordRuns := by
  intro s nbits w
  refine ⟨step_withFetchWord s nbits w, fun hn hc => ?_, fun hn hc => ⟨_, rfl, ?_⟩, fun h => h.withFetchWord nbits w⟩
  · rw [step_withFetchWord, tableCodeUnit_of_lt hn hc]
  · rw [step_withFetchWord, tableCodeUnit_of_le hn, tableCodeUnit_of_le (hn.trans hc)]

end Sys2Proof.Machine
end

section
/-! Runs of many steps, each kind of induction over them packaged once. -/

namespace Sys2Proof.Machine

theorem runSteps_succ {s t : State} (h : step s = .next t) (k : Nat) : runSteps (k + 1) s = runSteps k t := by
  rw [runSteps, h]

/-- A run of one step more takes that step at its end. -/
theorem runSteps_snoc {k : Nat} {s t : State} (h : runSteps k s = .next t) : runSteps (k + 1) s = step t := by
  induction k generalizing s with
  | zero =>
    cases h
    rw [runSteps]
    cases step t <;> rfl
  | succ k ih =>
    cases hs : step s with
    | next u =>
      rw [runSteps_succ hs] at h
      rw [runSteps_succ hs, ih h]
    | fault r => rw [runSteps, hs] at h; cases h
    | refused r => rw [runSteps, hs] at h; cases h

/-- What holds at the start and is handed from each of the first `n` steps to the next holds after every one of them. -/
theorem runSteps_invariant {P : Nat → State → Prop} {n : Nat} {s : State} (hstart : P 0 s)
    (hstep : ∀ k u, k < n → P k u → ∃ t, step u = .next t ∧ P (k + 1) t) :
    ∀ k, k ≤ n → ∃ t, runSteps k s = .next t ∧ P k t := by
  intro k hk
  induction k with
  | zero => exact ⟨s, rfl, hstart⟩
  | succ k ih =>
    obtain ⟨u, hrun, hu⟩ := ih (Nat.le_of_succ_le hk)
    obtain ⟨t, hone, ht⟩ := hstep k u hk hu
    exact ⟨t, (runSteps_snoc hrun).trans hone, ht⟩

/-- What every step does to a quantity, up to a reflexive and transitive relation, every run does. -/
theorem runSteps_relation {R : State → State → Prop} (hrefl : ∀ s, R s s) (htrans : ∀ s t u, R s t → R t u → R s u)
    (hstep : ∀ s t, step s = .next t → R s t) (k : Nat) {s t : State} (h : runSteps k s = .next t) : R s t := by
  induction k generalizing s with
  | zero => cases h; exact hrefl t
  | succ k ih =>
    cases hs : step s with
    | next u =>
      rw [runSteps_succ hs] at h
      exact htrans s u t (hstep s u hs) (ih h)
    | fault r => rw [runSteps, hs] at h; cases h
    | refused r => rw [runSteps, hs] at h; cases h

theorem runSteps_of_step_self {s : State} (h : step s = .next s) (k : Nat) : runSteps k s = .next s := by
  induction k with
  | zero => rfl
  | succ k ih => rw [runSteps_succ h, ih]

/-- With no level of `rst` to come a `tick` does nothing. -/
theorem State.tick_of_rst_nil {s : State} (h : s.rst = []) : s.tick = s := by
  have htail : s.rst.tail = s.rst := by rw [h, List.tail_nil]
  unfold State.tick
  rw [htail]

theorem rstAsserted_of_rst_nil {s : State} (h : s.rst = []) : s.rstAsserted = false := by
  unfold State.rstAsserted
  rw [h]

end Sys2Proof.Machine
end

section
/-! The scan from launch to its end: what no scan step touches, and the run of the whole phase (R60, R67, R68, R70). -/

namespace Sys2Proof.Machine

/-- A scan step leaves the registers of the RUN phase, the parameters, the streams and `rst` (R67). -/
theorem scanStep_frame (s : State) :
    (scanStep s).pc = s.pc ∧ (scanStep s).ptr = s.ptr ∧ (scanStep s).tape = s.tape ∧
    (scanStep s).params = s.params ∧ (scanStep s).input = s.input ∧ (scanStep s).output = s.output ∧
    (scanStep s).rst = s.rst := by
  rcases scanStep_cases s with ⟨c, stack, jt, -, -, ht⟩ | ⟨-, -, ht⟩ | ⟨-, -, ht⟩ | ⟨-, -, ht⟩ <;> rw [ht] <;>
    exact ⟨rfl, rfl, rfl, rfl, rfl, rfl, rfl⟩

/-- Settles O34: the frame of a scan step, and only its last three ways write `phase` or `fault`. -/
theorem scanTouchesNothingElse : Obligations.ScanTouchesNothingElse := by
  intro s hr hp
  obtain ⟨hpc, hptr, htape, hparams, hinput, houtput, -⟩ := scanStep_frame s.tick
  refine ⟨_, step_of_scan hr hp, hpc, hptr, fun a => congrArg (Memory.read · a) htape, hparams, hinput, houtput, ?_⟩
  rcases scanStep_cases s.tick with ⟨c, stack, jt, -, -, ht⟩ | ⟨hc, hs, -⟩ | ⟨hc, -, -⟩ | ⟨hc, -, -⟩
  · rw [ht]
    exact .inr (.inr ⟨hp, rfl⟩)
  · exact .inr (.inl ⟨hc, hs⟩)
  · exact .inl hc
  · exact .inl hc

/-- What stays so from the launch of `p` on the stream `i` until the first instruction. -/
structure Launched (p : Params) (i : InStream) (s : State) : Prop where
  inv : Inv s
  params : s.params = p
  rst : s.rst = []
  pc : s.pc = 0
  ptr : s.ptr = 0
  tape : s.tape = []
  input : s.input = i
  output : s.output = []
  fault : s.fault ≠ .ioEof

theorem launched_launch (p : Params) (i : InStream) : Launched p i (State.launch p i) where
  inv := inv_launch p i
  params := rfl
  rst := rfl
  pc := rfl
  ptr := rfl
  tape := rfl
  input := rfl
  output := rfl
  fault := nofun

section
variable {p : Params} {i : InStream} {s : State} (h : Launched p i s)
include h

theorem Launched.cellAt (a : Nat) : s.cellAt a = 0 := by
  unfold State.cellAt
  rw [h.tape, Memory.read_nil]

theorem Launched.step_eq (hp : s.phase = .scan) : step s = .next (scanStep s) := by
  rw [step_of_scan (rstAsserted_of_rst_nil h.rst) hp, State.tick_of_rst_nil h.rst]

theorem Launched.scanStep (hp : s.phase = .scan) : Launched p i (scanStep s) := by
  obtain ⟨hpc, hptr, htape, hparams, hinput, houtput, hrst⟩ := scanStep_frame s
  refine ⟨h.inv.scanStep hp, hparams.trans h.params, hrst.trans h.rst, hpc.trans h.pc, hptr.trans h.ptr,
    htape.trans h.tape, hinput.trans h.input, houtput.trans h.output, ?_⟩
  rcases scanStep_cases s with ⟨c, stack, jt, -, -, ht⟩ | ⟨-, -, ht⟩ | ⟨-, -, ht⟩ | ⟨-, -, ht⟩ <;> rw [ht]
  · exact h.fault
  · exact nofun
  · exact h.fault
  · exact nofun

/-- The scan's fault is the error of the one total function. -/
theorem Launched.buildJump_of_faulted (hp : s.phase = .faulted) : buildJump p.prog = .error s.fault := by
  have hsyntax : s.fault = .syntaxClose ∨ s.fault = .syntaxOpen := by
    have hnone := h.inv.fault_iff.mpr hp
    have heof := h.fault
    revert hnone heof
    cases s.fault <;> simp
  obtain ⟨-, -, -, hbad⟩ := h.inv.bad_brackets hsyntax
  rwa [h.params] at hbad

theorem Launched.buildJump_of_run (hp : s.phase = .run) : buildJump p.prog = .ok s.jt := by
  have hjt := h.inv.table (.inl hp)
  rwa [h.params] at hjt

theorem Launched.step_of_faulted (hp : s.phase = .faulted) : step s = .next s := by
  rw [step_of_terminal (rstAsserted_of_rst_nil h.rst) (.inr hp), State.tick_of_rst_nil h.rst]

end

/-- How far the scan has come after `k` steps: at address `k`, stopped by a fault, or over after `PROG_LEN + 1`. -/
def ScanStage (k : Nat) (s : State) : Prop :=
  (s.phase = .scan ∧ s.scanI = k) ∨ s.phase = .faulted ∨ (s.phase = .run ∧ s.params.progLen < k)

theorem scanStage_scanStep {k : Nat} {s : State} (hp : s.phase = .scan) (hi : s.scanI = k) :
    ScanStage (k + 1) (scanStep s) := by
  rcases scanStep_cases s with ⟨c, stack, jt, -, -, ht⟩ | ⟨-, -, ht⟩ | ⟨hc, -, ht⟩ | ⟨-, -, ht⟩ <;> rw [ht]
  · exact .inl ⟨hp, congrArg (· + 1) hi⟩
  · exact .inr (.inl rfl)
  · have hend := State.codeAt_eq_none_iff.mp hc
    exact .inr (.inr ⟨rfl, Nat.lt_succ_of_le (hi ▸ hend)⟩)
  · exact .inr (.inl rfl)

theorem Launched.step_stage {p : Params} {i : InStream} {k : Nat} {s : State} (h : Launched p i s)
    (hstage : ScanStage k s) (hk : k < p.progLen + 1) :
    ∃ t, step s = .next t ∧ Launched p i t ∧ ScanStage (k + 1) t := by
  rcases hstage with ⟨hp, hi⟩ | hp | ⟨-, hover⟩
  · exact ⟨_, h.step_eq hp, h.scanStep hp, scanStage_scanStep hp hi⟩
  · exact ⟨s, h.step_of_faulted hp, h, .inr (.inl hp)⟩
  · rw [h.params] at hover
    omega

/-- After `PROG_LEN + 1` steps the scan is over, since its index never passes `PROG_LEN`. -/
theorem Launched.outcome {p : Params} {i : InStream} {s : State} (h : Launched p i s)
    (hstage : ScanStage (p.progLen + 1) s) :
    (s.phase = .run ∧ s.fault = .none ∧ buildJump p.prog = .ok s.jt) ∨
    (s.phase = .faulted ∧ buildJump p.prog = .error s.fault) := by
  rcases hstage with ⟨hp, hi⟩ | hp | ⟨hp, -⟩
  · obtain ⟨hle, -⟩ := h.inv.scan_bound hp
    rw [h.params] at hle
    omega
  · exact .inr ⟨hp, h.buildJump_of_faulted hp⟩
  · exact .inl ⟨hp, h.inv.fault_eq_none (by simp [hp]), h.buildJump_of_run hp⟩

/-- Settles O35: a step for each address and one for the check at the end; the invariant holds the state reached against
`buildJump`. -/
theorem scanRefinesBuildJump : Obligations.ScanRefinesBuildJump := by
  intro p i
  have hstart : Launched p i (State.launch p i) ∧ ScanStage 0 (State.launch p i) :=
    ⟨launched_launch p i, .inl ⟨rfl, rfl⟩⟩
  obtain ⟨t, hrun, h, hstage⟩ := runSteps_invariant (n := p.progLen + 1)
    (P := fun k s => Launched p i s ∧ ScanStage k s) hstart
    (fun _ _ hk hu => hu.1.step_stage hu.2 hk) (p.progLen + 1) le_rfl
  refine ⟨t, hrun, h.pc, h.ptr, h.cellAt, h.params, h.input, h.output, fun jt hok => ?_, fun e herr => ?_⟩
  · rcases h.outcome hstage with ⟨hp, hfault, hjt⟩ | ⟨-, hbad⟩
    · cases hok.symm.trans hjt
      exact ⟨hp, hfault, rfl⟩
    · exact nomatch hok.symm.trans hbad
  · rcases h.outcome hstage with ⟨-, -, hjt⟩ | ⟨hp, hbad⟩
    · exact nomatch herr.symm.trans hjt
    · cases herr.symm.trans hbad
      exact ⟨hp, rfl⟩

/-- With a bracket error the step after a launched state of SCAN or FAULTED is one again: RUN would need a table. -/
theorem Launched.step_of_bad {p : Params} {i : InStream} {e : FaultCode} {s : State} (hbad : buildJump p.prog = .error e)
    (h : Launched p i s) (hp : s.phase = .scan ∨ s.phase = .faulted) :
    ∃ t, step s = .next t ∧ Launched p i t ∧ (t.phase = .scan ∨ t.phase = .faulted) := by
  rcases hp with hp | hp
  · have hnext := h.scanStep hp
    refine ⟨_, h.step_eq hp, hnext, ?_⟩
    rcases scanStage_scanStep hp rfl with ⟨hscan, -⟩ | hfaulted | ⟨hrun, -⟩
    · exact .inl hscan
    · exact .inr hfaulted
    · exact nomatch hbad.symm.trans (hnext.buildJump_of_run hrun)
  · exact ⟨s, h.step_of_faulted hp, h, .inr hp⟩

/-- Settles O39: from launch on, SCAN or FAULTED after every step, and neither executes an instruction. -/
theorem badProgramRunsNothing : Obligations.BadProgramRunsNothing := by
  intro p i e hbad k
  have hstart : Launched p i (State.launch p i) ∧
      ((State.launch p i).phase = .scan ∨ (State.launch p i).phase = .faulted) := ⟨launched_launch p i, .inl rfl⟩
  obtain ⟨t, hrun, h, hp⟩ := runSteps_invariant (n := k)
    (P := fun _ s => Launched p i s ∧ (s.phase = .scan ∨ s.phase = .faulted)) hstart
    (fun _ _ _ hu => hu.1.step_of_bad hbad hu.2) k le_rfl
  refine ⟨t, hrun, ?_, ?_, h.pc, h.ptr, h.cellAt, h.output, h.input⟩
  · rcases hp with hp | hp
    · exact .inl ⟨hp, h.inv.fault_eq_none (by simp [hp])⟩
    · cases hbad.symm.trans (h.buildJump_of_faulted hp)
      exact .inr ⟨hp, rfl⟩
  · exact executing_of_not_run (by rcases hp with hp | hp <;> rw [hp] <;> decide)

end Sys2Proof.Machine
end

section
/-! What single steps of the whole machine change, and the faults (R11, R14, R15, R109, R111, R121, R123). -/

namespace Sys2Proof.Machine

theorem rst_ne_asserted {s : State} (hr : s.rstAsserted = false) (p : Params) (gone : Bool) (rest : List RstPin) :
    s.rst ≠ .asserted p gone :: rest :=
  fun hrst => Bool.eq_false_iff.mp hr (rstAsserted_iff.mpr ⟨p, gone, rest, hrst⟩)

/-- Settles O45: a scan step keeps the parameters, an instruction those and the table. -/
theorem programAndTableConstant : Obligations.ProgramAndTableConstant := by
  intro s t hr hstep
  cases steps_of_step hstep with
  | asserted p gone rest hrst => exact absurd hrst (rst_ne_asserted hr p gone rest)
  | scan _ hp =>
    obtain ⟨-, -, -, hparams, -⟩ := scanStep_frame s.tick
    exact ⟨hparams, fun hne => absurd hp hne⟩
  | exec c _ _ _ _ hdone =>
    obtain ⟨hjt, -, -, hparams, -⟩ := hdone.frame
    exact ⟨hparams, fun _ => hjt⟩
  | halt | hold => exact ⟨rfl, fun _ => rfl⟩

/-- Settles O46: no step but one that executes an instruction writes the tape, and of those `Completes.cellAt` says which. -/
theorem cellsWrittenOnlyByIncDecIn : Obligations.CellsWrittenOnlyByIncDecIn := by
  intro s t a hr hstep hne
  cases steps_of_step hstep with
  | asserted p gone rest hrst => exact absurd hrst (rst_ne_asserted hr p gone rest)
  | scan =>
    obtain ⟨-, -, htape, -⟩ := scanStep_frame s.tick
    exact absurd (congrArg (Memory.read · a) htape) hne
  | exec c _ _ hp hfetch hdone =>
    rcases hdone.cellAt with hsame | ⟨hi, hother⟩
    · exact absurd (hsame a) hne
    · refine ⟨by_contra fun ha => hne (hother a ha), ?_⟩
      rw [executing_of_fetch hp hfetch]
      rcases hi with hi | hi | ⟨hi, -⟩
      · exact .inl (congrArg some hi)
      · exact .inr (.inl (congrArg some hi))
      · exact .inr (.inr (congrArg some hi))
  | halt | hold => exact absurd rfl hne

/-- Settles O47: no step but one that executes an instruction writes `ptr`, and of those `Completes.ptr` says which. -/
theorem ptrMovedOnlyByRightLeft : Obligations.PtrMovedOnlyByRightLeft := by
  intro s t hr hstep hne
  cases steps_of_step hstep with
  | asserted p gone rest hrst => exact absurd hrst (rst_ne_asserted hr p gone rest)
  | scan =>
    obtain ⟨-, hptr, -⟩ := scanStep_frame s.tick
    exact absurd hptr hne
  | exec c _ _ hp hfetch hdone =>
    rw [executing_of_fetch hp hfetch]
    exact (hdone.ptr.resolve_left hne).imp (congrArg some) (congrArg some)
  | halt | hold => exact absurd rfl hne

/-! ### The output stream -/

theorem outData_eq_none {s : State} (h : s.executing ≠ some .output ∨ s.rstAsserted = true) : s.outData = none := by
  have hvalid : s.outValid = false := by
    unfold State.outValid
    rcases h with h | h <;> simp [h]
  rw [State.outData, hvalid]
  rfl

theorem outData_of_output {s : State} (h : s.executing = some .output) (hr : s.rstAsserted = false) :
    s.outData = some (s.cellAt s.ptr) := by
  simp [State.outData, State.outValid, h, hr]

/-- Settles O48: an OUT that executes puts out `out_data`, and nothing else touches the output stream. -/
theorem outputGrowsByOutData : Obligations.OutputGrowsByOutData := by
  intro s t hstep
  have hnothing : t.output = s.output → s.outData = none → t.output = s.output ++ s.outData.toList := by
    intro hout hdata
    rw [hout, hdata, Option.toList_none, List.append_nil]
  cases steps_of_step hstep with
  | asserted p gone rest hrst => exact hnothing rfl (outData_eq_none (.inr (rstAsserted_iff.mpr ⟨p, gone, rest, hrst⟩)))
  | scan _ hp =>
    obtain ⟨-, -, -, -, -, hout, -⟩ := scanStep_frame s.tick
    exact hnothing hout (outData_eq_none (.inl (by simp [executing_of_not_run, hp])))
  | halt _ hp hfetch => exact hnothing rfl (outData_eq_none (.inl (by simp [executing_of_fetch_none hp hfetch])))
  | exec c _ hr hp hfetch hdone =>
    have hexec := executing_of_fetch hp hfetch
    have hout := hdone.output_eq
    split at hout
    · next hi => rw [hout, outData_of_output (hexec.trans (congrArg some hi)) hr]; rfl
    · next hi => exact hnothing hout (outData_eq_none (.inl (by simpa [hexec] using hi)))
  | hold _ hp => exact hnothing rfl (outData_eq_none (.inl (by simp [executing_of_terminal hp])))

/-- Settles O58: each step appends to the output stream. -/
theorem outputNeverTakenBack : Obligations.OutputNeverTakenBack := by
  intro k s t h
  refine runSteps_relation (R := fun s t => s.output <+: t.output) (fun s => List.prefix_rfl)
    (fun _ _ _ hst htu => hst.trans htu) (fun s t hstep => ?_) k h
  exact ⟨s.outData.toList, (outputGrowsByOutData s t hstep).symm⟩

/-! ### The input stream -/

theorem byteOffered_iff {s : State} :
    s.byteOffered = true ↔ s.executing = some .input ∧ ∃ b, s.inPoll = .byte b := by
  unfold State.byteOffered
  cases s.inPoll <;> simp

theorem byteOffered_eq_false {s : State} (h : s.executing ≠ some .input) : s.byteOffered = false :=
  Bool.eq_false_iff.mpr fun hoff => h (byteOffered_iff.mp hoff).1

theorem inReady_eq_false {s : State} (h : s.executing ≠ some .input) : s.inReady = false := by
  rw [State.inReady, byteOffered_eq_false h, Bool.false_and]

theorem inReady_of_released {s : State} (hr : s.rstAsserted = false) : s.inReady = s.byteOffered := by
  unfold State.inReady
  split
  · next p gone rest hrst => exact absurd hrst (rst_ne_asserted hr p gone rest)
  · rw [Bool.and_true]

/-- An instruction takes the byte that is offered, if it is an IN, and leaves the bytes to come otherwise. -/
theorem Completes.bytes {i : Instr} {s t : State} (h : Completes s i t) :
    (i = .input ∧ ∃ b, s.inPoll = .byte b ∧ s.input.bytes = b :: t.input.bytes) ∨
    (¬ (i = .input ∧ ∃ b, s.inPoll = .byte b) ∧ t.input.bytes = s.input.bytes) := by
  cases h with
  | inByte b hpoll => exact .inl ⟨rfl, b, hpoll, InStream.bytes_take hpoll⟩
  | inEof hpoll => exact .inr ⟨by simp [hpoll], rfl⟩
  | inNotYet hpoll => exact .inr ⟨by simp [hpoll], s.input.bytes_wait⟩
  | right | left | inc | dec | output | openTaken | openPassed | closeTaken | closePassed | nop =>
    exact .inr ⟨nofun, rfl⟩

/-- Settles O49: `in_ready` is the environment's account with `rst` asserted, and without it the offer to an IN. -/
theorem bytesLeaveByInReady : Obligations.BytesLeaveByInReady := by
  intro s t hstep
  have hnothing : s.executing = none → t.input = s.input →
      (s.inReady = true → ∃ b, s.inPoll = .byte b ∧ s.input.bytes = b :: t.input.bytes) ∧
      (s.inReady = false → t.input.bytes = s.input.bytes) := by
    intro hexec hin
    have hready : s.inReady = false := inReady_eq_false (by rw [hexec]; exact nofun)
    exact ⟨fun h => absurd (h.symm.trans hready) nofun, fun _ => by rw [hin]⟩
  cases steps_of_step hstep with
  | asserted p gone rest hrst =>
    have hin : (assertedStep s p).input = if s.inReady then s.input.take else s.input := rfl
    rw [hin]
    refine ⟨fun hready => ?_, fun hready => by rw [hready]; rfl⟩
    rw [inReady_of_asserted hrst, Bool.and_eq_true] at hready
    obtain ⟨-, b, hpoll⟩ := byteOffered_iff.mp hready.1
    rw [inReady_of_asserted hrst, hready.1, hready.2]
    exact ⟨b, hpoll, InStream.bytes_take hpoll⟩
  | scan _ hp =>
    obtain ⟨-, -, -, -, hin, -⟩ := scanStep_frame s.tick
    exact hnothing (executing_of_not_run (by simp [hp])) hin
  | halt _ hp hfetch => exact hnothing (executing_of_fetch_none hp hfetch) rfl
  | exec c _ hr hp hfetch hdone =>
    have hready : s.inReady = true ↔ decode c = .input ∧ ∃ b, s.inPoll = .byte b := by
      rw [inReady_of_released hr, byteOffered_iff, executing_of_fetch hp hfetch, Option.some_inj]
    rw [← Bool.not_eq_true, hready]
    rcases hdone.bytes with ⟨hi, b, hpoll, hbytes⟩ | ⟨hno, hbytes⟩
    · exact ⟨fun _ => ⟨b, hpoll, hbytes⟩, fun hno => absurd ⟨hi, b, hpoll⟩ hno⟩
    · exact ⟨fun hyes => absurd hyes hno, fun _ => hbytes⟩
  | hold _ hp => exact hnothing (executing_of_terminal hp) rfl

/-- Settles O59: each step takes the first byte or none. -/
theorem bytesTakenInOrder : Obligations.BytesTakenInOrder := by
  intro k s t h
  have hsuffix : t.input.bytes <:+ s.input.bytes := by
    refine runSteps_relation (R := fun s t => t.input.bytes <:+ s.input.bytes) (fun s => List.suffix_rfl)
      (fun _ _ _ hst htu => htu.trans hst) (fun s t hstep => ?_) k h
    obtain ⟨htaken, hkept⟩ := bytesLeaveByInReady s t hstep
    cases hready : s.inReady with
    | true =>
      obtain ⟨b, -, hbytes⟩ := htaken hready
      exact ⟨[b], hbytes.symm⟩
    | false => rw [hkept hready]
  obtain ⟨taken, htaken⟩ := hsuffix
  exact ⟨taken, htaken.symm⟩

/-- Settles O57: the poll finds nothing, and there is nothing for the environment to move on to. -/
theorem inWaitsForEver : Obligations.InWaitsForEver := by
  intro s hrst hp hfetch hpending hended
  have hpoll : s.inPoll = .notYet := by simp [State.inPoll, InStream.poll, hpending, hended]
  have hwait : s.inWait = s := by
    have hinput : s.input.wait = s.input := by simp [InStream.wait, hpending]
    rw [State.inWait, hinput]
  have hone : step s = .next s := by
    rw [step_of_fetch (rstAsserted_of_rst_nil hrst) hp hfetch, State.tick_of_rst_nil hrst]
    exact (exec_of_completes (.inNotYet hpoll)).trans (congrArg _ hwait)
  refine ⟨Bool.eq_false_iff.mpr fun hdone => ?_, runSteps_of_step_self hone⟩
  rcases s.done_eq_true_iff.mp hdone with h | h <;> rw [hp] at h <;> cases h

/-! ### The faults -/

/-- Under the condition of a code (R121) the step is the raise of that code. -/
theorem step_of_raisesWhen {s : State} {code : FaultCode} (hr : s.rstAsserted = false) (h : RaisesWhen s code) :
    step s = .next (s.tick.raise code) := by
  cases code with
  | none => exact h.elim
  | syntaxClose =>
    obtain ⟨hp, hc, hs⟩ := h
    rw [step_of_scan hr hp, scanStep_stray (s := s.tick) hc hs]
  | syntaxOpen =>
    obtain ⟨hp, hend, hs⟩ := h
    rw [step_of_scan hr hp, scanStep_end (s := s.tick) (State.codeAt_eq_none_iff.mpr hend)]
    exact congrArg _ (if_neg (by simpa using hs))
  | ioEof =>
    obtain ⟨hp, hfetch, hpoll⟩ := h
    exact (step_of_fetch hr hp hfetch).trans (exec_of_completes (.inEof hpoll))

/-- A step into FAULTED has met the condition of its code. -/
theorem raisesWhen_of_steps {s t : State} (h : Steps s t) (hp : s.phase ≠ .faulted) (ht : t.phase = .faulted) :
    RaisesWhen s t.fault := by
  cases h with
  | asserted => cases ht
  | scan _ hscan =>
    rcases scanStep_cases s.tick with ⟨c, stack, jt, -, -, heq⟩ | ⟨hc, hs, heq⟩ | ⟨-, -, heq⟩ | ⟨hc, hs, heq⟩ <;>
      rw [heq] at ht ⊢
    · exact absurd ht hp
    · exact ⟨hscan, hc, hs⟩
    · cases ht
    · exact ⟨hscan, State.codeAt_eq_none_iff.mp hc, hs⟩
  | halt => cases ht
  | exec c _ _ hrun hfetch hdone =>
    rcases hdone.phase_fault with ⟨hphase, -⟩ | ⟨hi, hpoll, rfl⟩
    · exact absurd (hphase.symm.trans ht) hp
    · have hcode : c = 0x2C := (decode_eq_iff (i := .input) rfl).mp hi
      exact ⟨hrun, hcode ▸ hfetch, hpoll⟩
  | hold => exact absurd ht hp

/-- Settles O50: `raisesWhen_of_steps` one way, `step_of_raisesWhen` the other, and both bracket faults are raised in SCAN. -/
theorem faultsRaisedExactlyWhen : Obligations.FaultsRaisedExactlyWhen := by
  intro s code hr hp
  refine ⟨⟨?_, fun h => ⟨_, step_of_raisesWhen hr h, rfl, rfl⟩⟩,
    fun h => ⟨_, step_of_raisesWhen hr h, rfl, rfl, rfl⟩, fun hinv hcode h => ?_⟩
  · rintro ⟨t, hstep, hphase, rfl⟩
    exact raisesWhen_of_steps (steps_of_step hstep) hp hphase
  · have hscan : s.phase = .scan := by
      cases code with
      | none => exact h.elim
      | syntaxClose | syntaxOpen => exact h.1
      | ioEof => exact absurd rfl hcode
    obtain ⟨hpc, -⟩ := hinv.scan_untouched hscan
    exact hpc

/-! ### Ports -/

/-- Settles O52: the bits are those of the two definitions. -/
theorem phaseAndFaultBits : Obligations.PhaseAndFaultBits := ⟨rfl, rfl, rfl, rfl, rfl, rfl, rfl, rfl⟩

/-- Settles O54: `in_valid` is looked at first, then `in_eof`. -/
theorem inputPinsAsOffer : Obligations.InputPinsAsOffer := fun _ _ => ⟨rfl, rfl, rfl⟩

theorem obsData_eq_some_iff {s : State} {a : Nat} {v : Byte} :
    s.obsData a = some v ↔ s.done = true ∧ a < s.params.tapeLen ∧ v = s.cellAt a := by
  unfold State.obsData
  split
  · next h =>
    obtain ⟨hdone, hlt⟩ := Bool.and_eq_true_iff.mp h
    simp [hdone, of_decide_eq_true hlt, eq_comm]
  · next h =>
    rw [Bool.and_eq_true, decide_eq_true_eq] at h
    exact ⟨nofun, fun ⟨hdone, hlt, _⟩ => absurd ⟨hdone, hlt⟩ h⟩

/-- Settles O53: the cell port by `obsData_eq_some_iff`; the other three are their registers. -/
theorem observationPort : Obligations.ObservationPort := fun _ _ _ => ⟨obsData_eq_some_iff, rfl, rfl, rfl⟩

end Sys2Proof.Machine
end

section
/-! Steps on other streams (R22, R109): the bytes put out before do not matter, nor does the input stream outside an IN. -/

namespace Sys2Proof.Machine

/-- `s` with its two streams replaced. -/
def State.restream (fi : InStream → InStream) (fo : List Byte → List Byte) (s : State) : State :=
  { s with input := fi s.input, output := fo s.output }

/-- A result with the streams of its next state replaced: the common form of `withEarlierOutput` and `withInput`. -/
def restreamNext (fi : InStream → InStream) (fo : List Byte → List Byte) : Result → Result
  | .next t => .next (t.restream fi fo)
  | .fault r => .fault r
  | .refused r => .refused r

theorem withEarlierOutput_eq (before : List Byte) (r : Result) :
    withEarlierOutput before r = restreamNext id (before ++ ·) r := by
  cases r <;> rfl

theorem withInput_eq (i : InStream) (r : Result) : withInput i r = restreamNext (fun _ => i) id r := by
  cases r <;> rfl

section
variable {fi : InStream → InStream} {fo : List Byte → List Byte}

theorem onCell_restream {s : State} {k k' : Byte → Result} (hk : ∀ v, k' v = restreamNext fi fo (k v)) :
    onCell (s.restream fi fo) k' = restreamNext fi fo (onCell s k) := by
  by_cases hptr : s.ptr < s.params.tapeLen
  · rw [onCell_of_lt hptr, onCell_of_lt (s := s.restream fi fo) hptr]
    exact hk _
  · have hoff := Nat.not_lt.mp hptr
    rw [onCell_off_tape hoff, onCell_off_tape (s := s.restream fi fo) hoff]
    rfl

theorem branch_restream (taken : Bool) (s : State) :
    branch taken (s.restream fi fo) = restreamNext fi fo (branch taken s) := by
  cases taken with
  | false => rfl
  | true =>
    cases hentry : s.jt.entry s.pc with
    | none =>
      rw [branch_no_entry hentry, branch_no_entry (s := s.restream fi fo) hentry]
      rfl
    | some target =>
      rw [branch_taken hentry, branch_taken (s := s.restream fi fo) hentry]
      rfl

theorem scanStep_restream (s : State) : scanStep (s.restream fi fo) = (scanStep s).restream fi fo := by
  rcases scanStep_cases s with ⟨c, stack, jt, hc, hu, ht⟩ | ⟨hc, hs, ht⟩ | ⟨hc, hs, ht⟩ | ⟨hc, hs, ht⟩ <;> rw [ht]
  · exact scanStep_unit (s := s.restream fi fo) hc hu
  · exact scanStep_stray (s := s.restream fi fo) hc hs
  · rw [scanStep_end (s := s.restream fi fo) hc]
    exact if_pos (List.isEmpty_iff.mpr hs)
  · rw [scanStep_end (s := s.restream fi fo) hc]
    exact if_neg fun hempty => hs (List.isEmpty_iff.mp hempty)

variable (hout : ∀ o b, fo (o ++ [b]) = fo o ++ [b])
include hout

/-- An instruction only appends to the output stream, and only IN looks at the input stream. -/
theorem exec_restream {i : Instr} {s : State} (hin : fi = id ∨ i ≠ .input) :
    exec i (s.restream fi fo) = restreamNext fi fo (exec i s) := by
  cases i with
  | right | left | nop => rfl
  | inc =>
    rw [exec_inc, exec_inc]
    exact onCell_restream fun _ => rfl
  | dec =>
    rw [exec_dec, exec_dec]
    exact onCell_restream fun _ => rfl
  | output =>
    rw [exec_output, exec_output]
    refine onCell_restream fun v => ?_
    simp only [restreamNext, State.restream, State.outPut_advance_eq, hout]
  | input =>
    obtain rfl := hin.resolve_right fun hne => hne rfl
    have hpoll : (s.restream id fo).inPoll = s.inPoll := rfl
    rw [exec_input, exec_input, execInput, execInput, hpoll]
    cases s.inPoll with
    | byte b => exact onCell_restream fun _ => rfl
    | eof | notYet => rfl
  | openLoop =>
    rw [exec_openLoop, exec_openLoop]
    exact onCell_restream fun _ => branch_restream _ s
  | closeLoop =>
    rw [exec_closeLoop, exec_closeLoop]
    exact onCell_restream fun _ => branch_restream _ s

theorem step_restream {s : State} (hin : fi = id ∨ s.executing ≠ some .input) :
    step (s.restream fi fo) = restreamNext fi fo (step s) := by
  cases hr : s.rstAsserted with
  | true =>
    obtain ⟨p, gone, rest, hrst⟩ := rstAsserted_iff.mp hr
    rw [step_of_asserted hrst, step_of_asserted (s := s.restream fi fo) hrst]
    rcases hin with rfl | hne
    · rfl
    · have hready := inReady_eq_false hne
      have hready' := inReady_eq_false (s := s.restream fi fo) hne
      simp only [restreamNext, assertedStep, hready, hready']
      rfl
  | false =>
    have hr' : (s.restream fi fo).rstAsserted = false := hr
    cases hp : s.phase with
    | scan =>
      rw [step_of_scan hr hp, step_of_scan hr' hp]
      exact congrArg _ (scanStep_restream s.tick)
    | run =>
      cases hfetch : s.fetch with
      | none =>
        have hend := fetch_eq_none.mp hfetch
        rw [step_of_run_past_end hr hp hend, step_of_run_past_end hr' hp hend]
        rfl
      | some c =>
        rw [step_of_fetch hr hp hfetch, step_of_fetch (s := s.restream fi fo) hr' hp hfetch]
        refine exec_restream (s := s.tick) hout (hin.imp_right fun hne hi => hne ?_)
        rw [executing_of_fetch hp hfetch, hi]
    | halted =>
      rw [step_of_terminal hr (.inl hp), step_of_terminal hr' (.inl hp)]
      rfl
    | faulted =>
      rw [step_of_terminal hr (.inr hp), step_of_terminal hr' (.inr hp)]
      rfl

end

/-- Settles O55: bytes put in front of the output stream stay in front of what is appended. -/
theorem outputNeverReadBack : Obligations.OutputNeverReadBack := by
  intro s before
  rw [withEarlierOutput_eq]
  exact step_restream (fun o b => (List.append_assoc before o [b]).symm) (.inl rfl)

/-- Settles O56: outside an IN any other input stream may stand there. -/
theorem inputIgnoredOutsideIn : Obligations.InputIgnoredOutsideIn := by
  intro s i hne
  rw [withInput_eq]
  exact step_restream (fi := fun _ => i) (fo := id) (fun _ _ => rfl) (.inr hne)

end Sys2Proof.Machine
end
